-- ==== Sys2Proof/Word.lean ====
section
/-! DEFINITION. The words of the engine (00_scope.md R8, 30_encoding.md R41): bytes, lanes, command words. -/

namespace Sys2Proof

/-- One byte of the state array, `S[k]` (00_scope.md R10). -/
abbrev Byte := BitVec 8

/-- One lane of the state array, `L[i]`, and one 64-bit operand or response datum (10_state.md R13, 30_encoding.md R40). -/
abbrev Lane := BitVec 64

/-- One command word `CMD` (30_encoding.md R41). -/
abbrev Cmd := BitVec 16

end Sys2Proof
end

