-- ==== Sys2Proof/Syntax.lean ====
section
/-! DEFINITION. The commands of the engine, one constructor per row of spec/opcode_table.json (30_encoding.md R43). -/

namespace Sys2Proof

/-- A command with its operands. ABSORB carries DATA beside its count, since it alone reads DATA (30_encoding.md R50);
the other commands drop it. The counts are the 4-bit field CNT = CMD[7:4] (R41, R42), so a term can hold a count outside
the legal range: `Instr.wellFormed` says which do not. -/
inductive Instr where
  /-- RESET (41_sponge_commands.md R70). -/
  | reset
  /-- ABSORB n, DATA (R71). -/
  | absorb (n : BitVec 4) (data : Lane)
  /-- FINALIZE (R73). -/
  | finalize
  /-- READ_DIGEST w (R74). -/
  | readDigest (w : BitVec 4)
  /-- READ_STATUS (R75). -/
  | readStatus
  deriving DecidableEq, Repr

end Sys2Proof
end

