-- ==== Sys2Proof/WellFormed.lean ====
section
/-! DEFINITION. Which commands the encoding admits: the CNT column of the opcode map (30_encoding.md R43, R44). -/

namespace Sys2Proof

/-- ABSORB takes 0 to 8 bytes and READ_DIGEST a lane index 0 to 3 (30_encoding.md R43); the other commands carry no count. -/
def Instr.wellFormed : Instr → Bool
  | .reset => true
  | .absorb n _ => decide (n.toNat ≤ 8)
  | .finalize => true
  | .readDigest w => decide (w.toNat ≤ 3)
  | .readStatus => true

end Sys2Proof
end

