-- ==== Sys2Proof/Decode.lean ====
section
/-! DEFINITION. The command decoder and encoder (30_encoding.md R41 to R48).

A transaction is one command word CMD and one operand DATA (R40); decoding is total, needs no length and depends on CMD
alone for legality (R47, R48). -/

namespace Sys2Proof

/-- OPC = CMD[3:0] (30_encoding.md R41). -/
def opcOf (cmd : Cmd) : BitVec 4 := cmd.extractLsb' 0 4

/-- CNT = CMD[7:4] (30_encoding.md R41, R42). -/
def cntOf (cmd : Cmd) : BitVec 4 := cmd.extractLsb' 4 4

/-- RSV = CMD[15:8] (30_encoding.md R41). -/
def rsvOf (cmd : Cmd) : BitVec 8 := cmd.extractLsb' 8 8

/-- Legal(CMD), the predicate of 30_encoding.md R44, written clause by clause. -/
def legal (cmd : Cmd) : Bool :=
  rsvOf cmd == 0x00 &&
    ((opcOf cmd == 0x0 && cntOf cmd == 0) ||
     (opcOf cmd == 0x1 && decide ((cntOf cmd).toNat ≤ 8)) ||
     (opcOf cmd == 0x2 && cntOf cmd == 0) ||
     (opcOf cmd == 0x3 && decide ((cntOf cmd).toNat ≤ 3)) ||
     (opcOf cmd == 0x4 && cntOf cmd == 0))

/-- Why a word is illegal: the three classes of 30_encoding.md R45. All of them are rejected with ILLEGAL_CMD. -/
inductive DecodeError where
  /-- RSV is not zero. -/
  | reservedBits
  /-- OPC is one of 0x5 to 0xF. -/
  | reservedOpcode
  /-- CNT is outside the opcode's legal range. -/
  | countRange
  deriving DecidableEq, Repr

/-- A command whose CNT the opcode admits, or `countRange`. -/
def checkCount (i : Instr) (ok : Bool) : Except DecodeError Instr :=
  if ok then .ok i else .error .countRange

/-- Decode(CMD) of 30_encoding.md R47, with the operand of ABSORB taken from DATA (log 7). -/
def decode (cmd : Cmd) (data : Lane) : Except DecodeError Instr :=
  if rsvOf cmd ≠ 0 then .error .reservedBits
  else match (opcOf cmd).toNat with
    | 0 => checkCount .reset (cntOf cmd == 0)
    | 1 => checkCount (.absorb (cntOf cmd) data) (decide ((cntOf cmd).toNat ≤ 8))
    | 2 => checkCount .finalize (cntOf cmd == 0)
    | 3 => checkCount (.readDigest (cntOf cmd)) (decide ((cntOf cmd).toNat ≤ 3))
    | 4 => checkCount .readStatus (cntOf cmd == 0)
    | _ => .error .reservedOpcode

/-- The command word of a count and an opcode, with RSV = 0 (30_encoding.md R41, R51). -/
def cmdWord (cnt opc : BitVec 4) : Cmd := 0x00#8 ++ cnt ++ opc

/-- The transaction (CMD, DATA) of a command (30_encoding.md R46, R51); DATA is 0 where the command ignores it. -/
def encode : Instr → Cmd × Lane
  | .reset => (cmdWord 0 0x0, 0)
  | .absorb n data => (cmdWord n 0x1, data)
  | .finalize => (cmdWord 0 0x2, 0)
  | .readDigest w => (cmdWord w 0x3, 0)
  | .readStatus => (cmdWord 0 0x4, 0)

/-- The command word in the low `nbits` bits of `w`, as spec/opcode_table.json numbers them: CMD is bits 15 to 0. -/
def tableCmd (nbits w : Nat) : Cmd := BitVec.ofNat 16 (w % 2 ^ nbits)

/-- The operand of the same instruction: DATA is bits 79 to 16, so it is zero where the table gives only CMD (log 8). -/
def tableData (nbits w : Nat) : Lane := BitVec.ofNat 64 ((w % 2 ^ nbits) >>> 16)

/-- The command that the decoder reads from the table's bits `w`; none where it refuses. -/
def decodeTableWord (nbits w : Nat) : Option Instr :=
  match decode (tableCmd nbits w) (tableData nbits w) with
  | .ok i => some i
  | .error _ => none

end Sys2Proof
end

