-- ==== Sys2Proof/Machine/State.lean ====
section
/-! DEFINITION. The state of one engine with its ports (10_state.md), and the reasons a step can stop. -/

namespace Sys2Proof.Machine

/-- The state array: 25 lanes, which are also the 200 bytes and the 5x5 grid (10_state.md R13, R14). -/
abbrev Lanes := Vector Lane 25

/-- PHASE (10_state.md R17). Squeezing is an instant inside FINALIZE and no phase at a command boundary
(90_conflicts.md C2; log 5). -/
inductive Phase where
  | absorbing
  | finalized
  deriving DecidableEq, Repr

/-- The response codes 0 to 3 (30_encoding.md R49). ECODE holds one of them, `ok` standing for 0, no rejection since
reset (10_state.md R19). -/
inductive RCode where
  | ok
  | usageError
  | illegalCmd
  | noDigest
  deriving DecidableEq, Repr

/-- One response: RCODE and RDATA (30_encoding.md R40, R49). -/
structure Response where
  rcode : RCode
  rdata : Lane
  deriving DecidableEq, Repr

/-- One thing that arrives at the engine from outside: the interactions of 70_reset_and_hazards.md R105, and the one
host action for which the engine has no move. -/
inductive HostEvent where
  /-- A transaction on the command port, issued after the previous response (30_encoding.md R40). -/
  | command (cmd : Cmd) (data : Lane)
  /-- Power-on again, or a hardware reset input, between commands (R94 (b), (c)). -/
  | hardReset
  /-- A transaction during which the host issues another command, or the platform applies a hardware reset, before its
  response: the host breaks R97 (93_implementation_defined.md U4; log 4). -/
  | overlapped (cmd : Cmd) (data : Lane)
  deriving DecidableEq, Repr

/-- The state of one instance, 10_state.md R13 to R19, with its response port and the host events to come. -/
structure State where
  /-- `L[0..24]`, the 1600-bit state array (R13). -/
  lanes : Lanes
  /-- CURSOR, 0..135 (R16, R25 (a)). -/
  cursor : Fin 136
  /-- PHASE (R17). -/
  phase : Phase
  /-- ERR, sticky (R18). -/
  err : Bool
  /-- ECODE, the code of the most recent rejection since reset (R19). -/
  ecode : RCode
  /-- The response port: the last response returned, if any since power-on (30_encoding.md R40, R49; log 3). -/
  response : Option Response
  /-- The MODEL'S OWN field: what the host will send, oldest first (log 1). -/
  host : List HostEvent
  deriving DecidableEq, Repr

/-- Why a step stops the machine. There is no such reason: an erroneous command is rejected with a response, which is a
next state and never a fault (60_exceptions.md R93, 70_reset_and_hazards.md R105). Nobody raises a fault, so nothing here
is safe or unsafe (log 12). -/
inductive Fault where
  deriving DecidableEq, Repr

/-- Why a step has no next state. -/
inductive Refusal where
  /-- An instruction with no meaning yet. Only an arm of `exec` could raise it, and none does. Safe: the model stops. -/
  | notModelled (mnemonic : String)
  /-- Raised by `step` alone, on `HostEvent.overlapped`: the host acts before the response to its last command. The spec
  gives no move and says 'refuse' (93_implementation_defined.md U4, 70_reset_and_hazards.md R97). Safe: the model stops
  where the hardware may go on. -/
  | hostOverlap
  deriving DecidableEq, Repr

/-- The state array after reset: every lane zero (10_state.md R26). -/
def zeroLanes : Lanes := Vector.replicate 25 0

/-- The machine at power-on, every element as 10_state.md R26 says. The response port holds nothing and the host has
sent nothing (DESIGN CHOICE, logs 1 and 3). -/
def State.reset : State where
  lanes := zeroLanes
  cursor := 0
  phase := .absorbing
  err := false
  ecode := .ok
  response := none
  host := []

end Sys2Proof.Machine
end

