-- ==== Sys2Proof/Machine/Ops.lean ====
section
/-! DEFINITION. The named operations over the state: the byte, lane and grid views of the state array, the ports, and
the rejection of a command, which stands in for an exception. -/

namespace Sys2Proof.Machine

/-! ### The three views of the state array (00_scope.md R10, 10_state.md R14, 20_memory.md R29) -/

/-- `A[x,y] = L[x + 5*y]` (10_state.md R14). -/
def laneAt (A : Lanes) (x y : Fin 5) : Lane := A[x.val + 5 * y.val]

/-- The state array whose lane at column x and row y is `f x y`, laid out row by row (10_state.md R14). -/
def ofGrid (f : Fin 5 → Fin 5 → Lane) : Lanes :=
  #v[f 0 0, f 1 0, f 2 0, f 3 0, f 4 0,
     f 0 1, f 1 1, f 2 1, f 3 1, f 4 1,
     f 0 2, f 1 2, f 2 2, f 3 2, f 4 2,
     f 0 3, f 1 3, f 2 3, f 3 3, f 4 3,
     f 0 4, f 1 4, f 2 4, f 3 4, f 4 4]

/-- Byte j of a 64-bit value, `v[8j+7:8j]` (20_memory.md R29, R31). -/
def byteOf (v : Lane) (j : Nat) : Byte := v.extractLsb' (8 * j) 8

/-- `v` with byte j replaced by `b` (20_memory.md R29). -/
def replaceByte (v : Lane) (j : Nat) (b : Byte) : Lane :=
  (v &&& ~~~(0xFF#64 <<< (8 * j))) ||| (b.setWidth 64 <<< (8 * j))

/-- `S[k]`, byte k mod 8 of lane k div 8 (20_memory.md R29). -/
def getByte (L : Lanes) (k : Fin 200) : Byte := byteOf L[k.val / 8] (k.val % 8)

/-- `S[k] <- b` (00_scope.md R10). -/
def setByte (L : Lanes) (k : Fin 200) (b : Byte) : Lanes :=
  L.set (k.val / 8) (replaceByte L[k.val / 8] (k.val % 8) b)

/-- `S[k] <- S[k] ^ b`, the one write the host can make to the state array (41_sponge_commands.md R69, R72). -/
def xorByte (L : Lanes) (k : Fin 200) (b : Byte) : Lanes := setByte L k (getByte L k ^^^ b)

/-- The index of a rate byte in the state array (10_state.md R15). -/
def rateIndex (c : Fin 136) : Fin 200 := ⟨c.val, by omega⟩

/-- `MemRead(k, n) = S[k+n-1] ‖ ... ‖ S[k]`, zero-extended to 64 bits (00_scope.md R10). -/
def memRead (L : Lanes) (k : Nat) : (n : Nat) → k + n ≤ 200 → Lane
  | 0, _ => 0
  | n + 1, h => memRead L k n (by omega) ||| ((getByte L ⟨k + n, by omega⟩).setWidth 64 <<< (8 * n))

/-- `MemWrite(k, n, v)`: `S[k+j] <- v[8j+7:8j]` for j in 0..n-1 (00_scope.md R10). -/
def memWrite (L : Lanes) (k : Nat) (v : Lane) : (n : Nat) → k + n ≤ 200 → Lanes
  | 0, _ => L
  | n + 1, h => setByte (memWrite L k v n (by omega)) ⟨k + n, by omega⟩ (byteOf v n)

/-! ### Responses and rejection -/

/-- The 2-bit code of a response, also the value of ECODE (30_encoding.md R49, 10_state.md R19). -/
def RCode.code : RCode → BitVec 2
  | .ok => 0
  | .usageError => 1
  | .illegalCmd => 2
  | .noDigest => 3

/-- An accepted command answers RCODE = OK with its datum (41_sponge_commands.md R68, 30_encoding.md R49); ERR and ECODE
stay as they are (10_state.md R19). -/
def respond (datum : Lane) (s : State) : State := { s with response := some ⟨.ok, datum⟩ }

/-- `raise Reject(code)`, what the engine has in place of taking an exception: ERR and ECODE record it, the response
reports it, and S, CURSOR and PHASE are unchanged (60_exceptions.md R83). No return from it exists: the next command is
taken as usual, and RESET alone clears the record (R88). -/
def reject (code : RCode) (s : State) : State :=
  { s with err := true, ecode := code, response := some ⟨code, 0⟩ }

/-! ### Reset and the command port -/

/-- Every element of the engine to its reset value (10_state.md R26, 41_sponge_commands.md R70). -/
def clearEngine (s : State) : State :=
  { s with lanes := zeroLanes, cursor := 0, phase := .absorbing, err := false, ecode := .ok }

/-- Power-on or a hardware reset input between commands: the reset state, and the host gets nothing back
(70_reset_and_hazards.md R94, R105; log 3). -/
def hardwareReset (s : State) : State := { clearEngine s with response := none }

/-- What stands next at the command port, and the state with it taken; none where the host has sent nothing more
(30_encoding.md R40; log 1). -/
def takeEvent (s : State) : Option (HostEvent × State) :=
  match s.host with
  | [] => none
  | e :: rest => some (e, { s with host := rest })

/-- `s` with the transaction (CMD, DATA) next at the command port. -/
def offer (cmd : Cmd) (data : Lane) (s : State) : State := { s with host := .command cmd data :: s.host }

end Sys2Proof.Machine
end

