-- ==== Sys2Proof/Machine/Operands.lean ====
section
/-! DEFINITION. The operand forms: the bytes ABSORB takes from DATA, the lane READ_DIGEST returns, and the digest as
bytes (20_memory.md R31, R32, 30_encoding.md R42, R50). -/

namespace Sys2Proof.Machine

/-- The first `n` bytes of DATA, byte 0 first; the others are ignored (20_memory.md R31, 30_encoding.md R50). -/
def dataBytes (n : Nat) (data : Lane) : List Byte := (List.range n).map (byteOf data)

/-- `L[w]` for the lane index in CNT (30_encoding.md R42, 41_sponge_commands.md R74). -/
def digestWord (L : Lanes) (w : BitVec 4) : Lane := L[w.toNat]'(by have := w.isLt; omega)

/-- The 32 digest bytes `S[0..31]` in order (10_state.md R21, 20_memory.md R32). -/
def digestBytes (L : Lanes) : List Byte :=
  (List.finRange 32).map fun d => getByte L ⟨d.val, by omega⟩

end Sys2Proof.Machine
end

