-- ==== Sys2Proof/Config.lean ====
section
/-! DEFINITION. What is fixed for the engine (00_scope.md R6, R7).

Of R6's parameters, the sizes stand where they are used, as the bounds of the types of `Machine/State.lean` and
`Machine/Ops.lean`: B = 200 bytes, NLANES = 25, W = 64, NR = NRC = 24, RATE = 136, NRHO = 25, DLEN = 32. The padding
bytes are the constants below.

Of R7's parameters, N_INSTANCES is the argument of `Machine.Platform`; TARGET_ORDER, NONCE_WIDTH and HEADER_FORMAT belong
to the external caller, and no rule of the engine reads them (log 11). -/

namespace Sys2Proof.Config

/-- DS, the domain-separation byte of Ethereum Keccak, not SHA3's 0x06 (00_scope.md R6, 90_conflicts.md C6). -/
def ds : Byte := 0x01

/-- PADEND, the final pad byte, at index 135 (00_scope.md R6). -/
def padEnd : Byte := 0x80

/-- PERM_CYCLES, the latency of one permutation: left open, and no rule reads it (00_scope.md R7, 92_eei_decisions.md D16;
log 10). -/
opaque permCycles : Nat

end Sys2Proof.Config
end

