-- ==== Sys2Proof/Machine/Permutation.lean ====
section
/-! DEFINITION. The Permutation Core, Keccak-f[1600] (40_permutation.md). Every step mapping is a function from a whole
25-lane input to a whole 25-lane output (R67). Coordinates are `Fin 5`, whose sum is the sum mod 5. The formulas and tables
are the spec's, from general knowledge by its own mark (log 14). -/

namespace Sys2Proof.Machine

/-- ROTL64 (R54); rotation by 0 is a case of its own, so no shift by 64 is performed. -/
def rotl64 (v : Lane) (n : Nat) : Lane :=
  if n = 0 then v else (v <<< n) ||| (v >>> (64 - n))

/-- C[x], the parity of column x (R55). -/
def columnParity (A : Lanes) (x : Fin 5) : Lane :=
  laneAt A x 0 ^^^ laneAt A x 1 ^^^ laneAt A x 2 ^^^ laneAt A x 3 ^^^ laneAt A x 4

/-- D[x] = C[x-1] ^ ROTL64(C[x+1], 1) (R55). -/
def thetaEffect (A : Lanes) (x : Fin 5) : Lane :=
  columnParity A (x + 4) ^^^ rotl64 (columnParity A (x + 1)) 1

/-- Theta (R55). -/
def theta (A : Lanes) : Lanes := ofGrid fun x y => laneAt A x y ^^^ thetaEffect A x

/-- The rotation offsets by lane index, `RHO[i] = r[i mod 5, i div 5]` (R56). -/
def rhoOffsets : Vector Nat 25 :=
  #v[ 0,  1, 62, 28, 27,
     36, 44,  6, 55, 20,
      3, 10, 43, 25, 39,
     41, 45, 15, 21,  8,
     18,  2, 61, 56, 14]

/-- `r[x,y]` (R56). -/
def rhoOffset (x y : Fin 5) : Nat := rhoOffsets[x.val + 5 * y.val]

/-- Rho (R57). -/
def rho (A : Lanes) : Lanes := ofGrid fun x y => rotl64 (laneAt A x y) (rhoOffset x y)

/-- Pi (R58): `A'[x,y] = A[(x + 3y) mod 5, x]`. -/
def piStep (A : Lanes) : Lanes := ofGrid fun x y => laneAt A (x + 3 * y) x

/-- Chi (R59): `A'[x,y] = A[x,y] ^ (~A[x+1,y] & A[x+2,y])`. -/
def chi (A : Lanes) : Lanes :=
  ofGrid fun x y => laneAt A x y ^^^ (~~~(laneAt A (x + 1) y) &&& laneAt A (x + 2) y)

/-- The table of R60 row by row, as it is printed: row k holds RC[k] and, in its second column, RC[k + 12]. -/
def roundConstantRows : Vector (Lane × Lane) 12 :=
  #v[(0x0000000000000001, 0x000000008000808B),
     (0x0000000000008082, 0x800000000000008B),
     (0x800000000000808A, 0x8000000000008089),
     (0x8000000080008000, 0x8000000000008003),
     (0x000000000000808B, 0x8000000000008002),
     (0x0000000080000001, 0x8000000000000080),
     (0x8000000080008081, 0x000000000000800A),
     (0x8000000000008009, 0x800000008000000A),
     (0x000000000000008A, 0x8000000080008081),
     (0x0000000000000088, 0x8000000000008080),
     (0x0000000080008009, 0x0000000080000001),
     (0x000000008000000A, 0x8000000080008008)]

/-- RC[i] (R60): rounds 0 to 11 read the first column, rounds 12 to 23 the second. -/
def roundConstant (i : Fin 24) : Lane :=
  if h : i.val < 12 then roundConstantRows[i.val].1 else (roundConstantRows[i.val - 12]'(by omega)).2

/-- Iota (R61): RC[i] into lane 0. -/
def iota (A : Lanes) (i : Fin 24) : Lanes := A.set 0 (A[0] ^^^ roundConstant i)

/-- Round (R62): theta, rho, pi, chi, iota in this order. -/
def keccakRound (A : Lanes) (i : Fin 24) : Lanes := iota (chi (piStep (rho (theta A)))) i

/-- KeccakF (R63): 24 rounds in increasing order. Irreducible, so that no proof unfolds 24 rounds by accident; the
kernel evaluates it, and `unfold keccakF` still opens it. -/
@[irreducible] def keccakF (A : Lanes) : Lanes := (List.finRange 24).foldl keccakRound A

/-- PERMUTE (R64): no other state element is read or written. -/
def permute (s : State) : State := { s with lanes := keccakF s.lanes }

end Sys2Proof.Machine
end

