-- ==== Sys2Proof/Machine/Sponge.lean ====
section
/-! DEFINITION. The primitives of the Sponge Engine: AbsorbByte, Pad and the end of a message (41_sponge_commands.md). -/

namespace Sys2Proof.Machine

/-- AbsorbByte(b) (R69): the byte goes in at CURSOR; when the block fills, PERMUTE runs at once and CURSOR is 0. The
increment to 136 is the second branch, so 136 is never held (90_conflicts.md C4; log 5). -/
def absorbByte (b : Byte) (s : State) : State :=
  let s' := { s with lanes := xorByte s.lanes (rateIndex s.cursor) b }
  if h : s.cursor.val + 1 < 136 then { s' with cursor := ⟨s.cursor.val + 1, h⟩ }
  else { permute s' with cursor := 0 }

/-- The bytes of a list absorbed in order (R71, R76). -/
def absorbBytes (bs : List Byte) (s : State) : State := bs.foldl (fun t b => absorbByte b t) s

/-- Pad (R72): DS at CURSOR, PADEND at byte 135; both hit byte 135 when CURSOR = 135. -/
def pad (s : State) : State :=
  { s with lanes := xorByte (xorByte s.lanes (rateIndex s.cursor) Config.ds) 135 Config.padEnd }

/-- Pad, PERMUTE once, CURSOR to 0 and PHASE to Finalized (R73). -/
def finishMessage (s : State) : State := { permute (pad s) with cursor := 0, phase := .finalized }

end Sys2Proof.Machine
end

