-- ==== Sys2Proof/Machine/Lifecycle.lean ====
section
/-! DEFINITION. The commands that move a message through its lifecycle: RESET, ABSORB, FINALIZE (41_sponge_commands.md). -/

namespace Sys2Proof.Machine

/-- RESET (R70), accepted in every phase. -/
def execReset (s : State) : Host.Outcome State Fault Refusal := .next (respond 0 (clearEngine s))

/-- ABSORB n, DATA (R71). A count above 8 is ILLEGAL_CMD before any phase check (60_exceptions.md R85, R86; log 6); the
phase is checked for n = 0 too. -/
def execAbsorb (n : BitVec 4) (data : Lane) (s : State) : Host.Outcome State Fault Refusal :=
  if n.toNat ≤ 8 then
    match s.phase with
    | .absorbing => .next (respond 0 (absorbBytes (dataBytes n.toNat data) s))
    | .finalized => .next (reject .usageError s)
  else .next (reject .illegalCmd s)

/-- FINALIZE (R73). -/
def execFinalize (s : State) : Host.Outcome State Fault Refusal :=
  match s.phase with
  | .absorbing => .next (respond 0 (finishMessage s))
  | .finalized => .next (reject .usageError s)

end Sys2Proof.Machine
end

