-- ==== Sys2Proof/Machine/Flags.lean ====
section
/-! DEFINITION. STATUS, the only flags of the engine: PHASE, DVALID, ERR, ECODE and CURSOR in one read-only word
(10_state.md R20, R24). No command computes a carry, zero or overflow flag. -/

namespace Sys2Proof.Machine

/-- PHASECODE: 0 Absorbing, 2 Finalized; 1 and 3 are never produced (10_state.md R20). -/
def Phase.code : Phase → BitVec 2
  | .absorbing => 0
  | .finalized => 2

/-- DVALID, 1 exactly when a digest is readable (10_state.md R20). -/
def dvalid (s : State) : Bool :=
  match s.phase with
  | .absorbing => false
  | .finalized => true

/-- STATUS = `CURSOR[7:0] ‖ 00 ‖ ECODE[1:0] ‖ ERR ‖ DVALID ‖ PHASECODE[1:0]` (41_sponge_commands.md R75, 10_state.md R20). -/
def statusWord (s : State) : BitVec 16 :=
  BitVec.ofNat 8 s.cursor.val ++ 0#2 ++ s.ecode.code ++ BitVec.ofBool s.err ++ BitVec.ofBool (dvalid s) ++ s.phase.code

end Sys2Proof.Machine
end

