-- ==== Sys2Proof/Machine/Readout.lean ====
section
/-! DEFINITION. The commands that read and write no state: READ_DIGEST, READ_STATUS (41_sponge_commands.md). -/

namespace Sys2Proof.Machine

/-- READ_DIGEST w (R74). A lane index above 3 is ILLEGAL_CMD before any phase check (60_exceptions.md R85, R86; log 6). -/
def execReadDigest (w : BitVec 4) (s : State) : Host.Outcome State Fault Refusal :=
  if w.toNat ≤ 3 then
    match s.phase with
    | .absorbing => .next (reject .noDigest s)
    | .finalized => .next (respond (digestWord s.lanes w) s)
  else .next (reject .illegalCmd s)

/-- READ_STATUS (R75): STATUS zero-extended; ERR is not cleared. -/
def execReadStatus (s : State) : Host.Outcome State Fault Refusal :=
  .next (respond ((statusWord s).setWidth 64) s)

end Sys2Proof.Machine
end

