-- ==== Sys2Proof/Machine/Dispatch.lean ====
section
/-! DEFINITION. The dispatch of a decoded command to its meaning (41_sponge_commands.md R68). -/

namespace Sys2Proof.Machine

def exec (i : Instr) (s : State) : Host.Outcome State Fault Refusal :=
  match i with
  | .reset => Sys2Proof.Machine.execReset s
  | .absorb n data => Sys2Proof.Machine.execAbsorb n data s
  | .finalize => Sys2Proof.Machine.execFinalize s
  | .readDigest w => Sys2Proof.Machine.execReadDigest w s
  | .readStatus => Sys2Proof.Machine.execReadStatus s

end Sys2Proof.Machine
end

