-- ==== Sys2Proof/Machine/Step.lean ====
section
/-! DEFINITION. One step: the engine takes what stands next at its command port and answers it (41_sponge_commands.md
R68, 70_reset_and_hazards.md R100). -/

namespace Sys2Proof.Machine

/-- One transaction: an illegal word is rejected with ILLEGAL_CMD whatever the phase, a legal one is performed
(41_sponge_commands.md R68, 30_encoding.md R44). -/
def transact (cmd : Cmd) (data : Lane) (s : State) : Host.Outcome State Fault Refusal :=
  match decode cmd data with
  | .ok i => exec i s
  | .error _ => .next (reject .illegalCmd s)

/-- One step of the machine: with nothing at the port the engine waits and nothing changes (log 2); a command is one
indivisible transaction (R100); a hardware reset gives the reset state (R94); a host that breaks serialisation is
refused (93_implementation_defined.md U4; log 4). -/
def step (s : State) : Host.Outcome State Fault Refusal :=
  match takeEvent s with
  | none => .next s
  | some (.command cmd data, s') => transact cmd data s'
  | some (.hardReset, s') => .next (hardwareReset s')
  | some (.overlapped _ _, _) => .refused .hostOverlap

/-- `s` with the table's instruction `w` next at the command port, in front of anything the host has still to send
(log 8): the very next step runs it. -/
def State.withFetchWord (s : State) (nbits w : Nat) : State := offer (tableCmd nbits w) (tableData nbits w) s

end Sys2Proof.Machine
end

