-- ==== Sys2Proof/Machine/HostPrograms.lean ====
section
/-! DEFINITION. The command sequences a host sends: the pseudo-instructions UPDATE, DIGEST and HASH (30_encoding.md R52,
R53), which are the source's `update`, `finalize` and one message per lifecycle (41_sponge_commands.md R82,
70_reset_and_hazards.md R98), and the search loop's candidate (R103). -/

namespace Sys2Proof.Machine

/-- A command as its transaction on the port (30_encoding.md R40, R51). -/
def commandEvent (i : Instr) : HostEvent := .command (encode i).1 (encode i).2

/-- `m[n-1] ‖ ... ‖ m[1] ‖ m[0]`, zero-extended to 64 bits (30_encoding.md R52). -/
def dataWord (m : List Byte) : Lane := m.foldr (fun b acc => (acc <<< 8) ||| b.setWidth 64) 0

/-- One ABSORB of a list of at most 8 bytes (30_encoding.md R52). -/
def absorbEvent (m : List Byte) : HostEvent := commandEvent (.absorb (BitVec.ofNat 4 m.length) (dataWord m))

/-- `UPDATE m` (30_encoding.md R52): ABSORB 0 for the empty string, else ceil(N/8) ABSORBs of up to 8 bytes. -/
def updateProgram (m : List Byte) : List HostEvent :=
  if m.length = 0 then [absorbEvent []]
  else (List.range ((m.length + 7) / 8)).map fun q => absorbEvent ((m.drop (8 * q)).take 8)

/-- `DIGEST` (30_encoding.md R53): FINALIZE, then READ_DIGEST 0 to 3. -/
def digestProgram : List HostEvent :=
  [commandEvent .finalize, commandEvent (.readDigest 0), commandEvent (.readDigest 1), commandEvent (.readDigest 2),
    commandEvent (.readDigest 3)]

/-- `HASH m` (30_encoding.md R53). -/
def hashProgram (m : List Byte) : List HostEvent := commandEvent .reset :: (updateProgram m ++ digestProgram)

/-- The bytes of the RDATA words of READ_DIGEST 0, 1, 2, ..., low byte first (30_encoding.md R53, 20_memory.md R32). -/
def wordsToBytes (ws : List Lane) : List Byte := ws.flatMap (dataBytes 8)

/-- What the search loop runs for one nonce (70_reset_and_hazards.md R103); the lengths and layouts of header and nonce
are the caller's. -/
def candidateProgram (header nonce : List Byte) : List HostEvent := hashProgram (header ++ nonce)

end Sys2Proof.Machine
end

