-- ==== Sys2Proof/Machine/Assembler.lean ====
section
/-! DEFINITION. The assembly text of command sequences (30_encoding.md R51 to R53): one command a line, `;` begins a
comment, an omitted `<data64>` is 0, and an assembler refuses n > 8, w > 3 and any unknown mnemonic. The lexical
details R51 leaves open are the model's (log 13). -/

namespace Sys2Proof.Machine

/-- Why the assembler refuses a line (30_encoding.md R51). -/
inductive AsmError where
  /-- The first word of the line names no command and no pseudo-instruction. -/
  | unknownMnemonic
  /-- An operand is missing, left over, no numeral, or out of range. -/
  | badOperand
  deriving DecidableEq, Repr

/-- Blanks and the comma separate the words of a line (log 13). -/
def isSeparator (c : Char) : Bool := c == ' ' || c == ',' || c == '\t'

/-- The words of a line, the word read so far held reversed in `cur`. -/
def wordsFrom (cur : List Char) : List Char → List (List Char)
  | [] => if cur.isEmpty then [] else [cur.reverse]
  | c :: cs =>
    if isSeparator c then (if cur.isEmpty then wordsFrom [] cs else cur.reverse :: wordsFrom [] cs)
    else wordsFrom (c :: cur) cs

/-- The words before any comment. -/
def wordsOf (cs : List Char) : List (List Char) := wordsFrom [] (cs.takeWhile (· != ';'))

/-- The value of one hexadecimal digit. -/
def digitValue (c : Char) : Option Nat :=
  if '0'.toNat ≤ c.toNat ∧ c.toNat ≤ '9'.toNat then some (c.toNat - '0'.toNat)
  else if 'A'.toNat ≤ c.toNat ∧ c.toNat ≤ 'F'.toNat then some (c.toNat - 'A'.toNat + 10)
  else if 'a'.toNat ≤ c.toNat ∧ c.toNat ≤ 'f'.toNat then some (c.toNat - 'a'.toNat + 10)
  else none

/-- The digits of a numeral in a base, after the value read so far. -/
def digitsFrom (base acc : Nat) : List Char → Option Nat
  | [] => some acc
  | c :: cs =>
    match digitValue c with
    | some d => if d < base then digitsFrom base (base * acc + d) cs else none
    | none => none

/-- A hexadecimal numeral without prefix; at least one digit. -/
def hexNumber (cs : List Char) : Option Nat := if cs.isEmpty then none else digitsFrom 16 0 cs

/-- A hexadecimal literal with prefix 0x, or a decimal numeral. -/
def number : List Char → Option Nat
  | '0' :: 'x' :: cs => hexNumber cs
  | cs => if cs.isEmpty then none else digitsFrom 10 0 cs

/-- A numeral below a bound. -/
def numberBelow (bound : Nat) (cs : List Char) : Option Nat := (number cs).filter (decide <| · < bound)

/-- `<data64>`: one numeral below 2^64, or nothing, which is 0 (30_encoding.md R51). -/
def dataOperand : List (List Char) → Option Lane
  | [] => some 0
  | [w] => (numberBelow (2 ^ 64) w).map (BitVec.ofNat 64)
  | _ => none

/-- One byte of a hex byte list, with or without the prefix 0x (30_encoding.md R52; log 13). -/
def hexByte : List Char → Option Byte
  | '0' :: 'x' :: cs => ((hexNumber cs).filter (decide <| · < 256)).map (BitVec.ofNat 8)
  | cs => ((hexNumber cs).filter (decide <| · < 256)).map (BitVec.ofNat 8)

/-- The bytes of an ASCII string up to its closing quote, which nothing but a comment may follow. -/
def quotedBytes : List Char → Option (List Byte)
  | [] => none
  | '"' :: rest => if (wordsOf rest).isEmpty then some [] else none
  | c :: cs => if c.toNat < 128 then (quotedBytes cs).map (BitVec.ofNat 8 c.toNat :: ·) else none

/-- `<bytes>`: a quoted ASCII string or a hex byte list, which may be empty (30_encoding.md R52). -/
def bytesOperand (cs : List Char) : Option (List Byte) :=
  match cs.dropWhile isSeparator with
  | '"' :: rest => quotedBytes rest
  | cs' => (wordsOf cs').mapM hexByte

/-- A line whose operands the assembler accepts, or its refusal. -/
def orBadOperand : Option (List HostEvent) → Except AsmError (List HostEvent)
  | some es => .ok es
  | none => .error .badOperand

/-- The operands of ABSORB: a count of at most 8 and the data (30_encoding.md R51). -/
def absorbOperands : List (List Char) → Option (List HostEvent)
  | n :: ops => do
    let count ← numberBelow 9 n
    let data ← dataOperand ops
    return [commandEvent (.absorb (BitVec.ofNat 4 count) data)]
  | [] => none

/-- The operand of READ_DIGEST: a lane index of at most 3 (30_encoding.md R51). -/
def readDigestOperand : List (List Char) → Option (List HostEvent)
  | [w] => (numberBelow 4 w).map fun k => [commandEvent (.readDigest (BitVec.ofNat 4 k))]
  | _ => none

/-- The operands of `.word16`: a raw command word, legal or not, and the data (30_encoding.md R51). -/
def rawOperands : List (List Char) → Option (List HostEvent)
  | w :: ops => do
    let cmd ← numberBelow (2 ^ 16) w
    let data ← dataOperand ops
    return [.command (BitVec.ofNat 16 cmd) data]
  | [] => none

/-- A command without operands. -/
def noOperands (es : List HostEvent) (ops : List (List Char)) : Option (List HostEvent) :=
  if ops.isEmpty then some es else none

/-- One line of assembly as the transactions it stands for; a blank or comment line stands for none (30_encoding.md R51
to R53). -/
def assembleLine (line : List Char) : Except AsmError (List HostEvent) :=
  let start := line.dropWhile isSeparator
  let stops := fun c => !(isSeparator c || c == ';' || c == '"')
  let word := start.takeWhile stops
  let rest := start.dropWhile stops
  if word.isEmpty then (if (wordsOf start).isEmpty then .ok [] else .error .unknownMnemonic)
  else if word = ['R', 'E', 'S', 'E', 'T'] then orBadOperand (noOperands [commandEvent .reset] (wordsOf rest))
  else if word = ['A', 'B', 'S', 'O', 'R', 'B'] then orBadOperand (absorbOperands (wordsOf rest))
  else if word = ['F', 'I', 'N', 'A', 'L', 'I', 'Z', 'E'] then
    orBadOperand (noOperands [commandEvent .finalize] (wordsOf rest))
  else if word = ['R', 'E', 'A', 'D', '_', 'D', 'I', 'G', 'E', 'S', 'T'] then
    orBadOperand (readDigestOperand (wordsOf rest))
  else if word = ['R', 'E', 'A', 'D', '_', 'S', 'T', 'A', 'T', 'U', 'S'] then
    orBadOperand (noOperands [commandEvent .readStatus] (wordsOf rest))
  else if word = ['.', 'w', 'o', 'r', 'd', '1', '6'] then orBadOperand (rawOperands (wordsOf rest))
  else if word = ['U', 'P', 'D', 'A', 'T', 'E'] then orBadOperand ((bytesOperand rest).map updateProgram)
  else if word = ['D', 'I', 'G', 'E', 'S', 'T'] then orBadOperand (noOperands digestProgram (wordsOf rest))
  else if word = ['H', 'A', 'S', 'H'] then orBadOperand ((bytesOperand rest).map hashProgram)
  else .error .unknownMnemonic

/-- The lines of a text in order; the first refused line refuses the text (30_encoding.md R51). -/
def assemble (lines : List (List Char)) : Except AsmError (List HostEvent) := do
  let parts ← lines.mapM assembleLine
  return parts.flatten

end Sys2Proof.Machine
end

