-- ==== Sys2Proof/Machine/Run.lean ====
section
/-! DEFINITION. A run of one engine and what it shows (00_scope.md R11, 70_reset_and_hazards.md R102). -/

namespace Sys2Proof.Machine

/-- The power-on state of an engine to which the host will send `events` (70_reset_and_hazards.md R102, R106). -/
def launch (events : List HostEvent) : State := { State.reset with host := events }

/-- What the step from `s` to `s'` gives back to the host: the response of a command, nothing for a reset or an idle
step (70_reset_and_hazards.md R105). -/
def answer (s s' : State) : List Response :=
  match s.host with
  | .command _ _ :: _ => s'.response.toList
  | _ => []

/-- The responses that `k` steps return, oldest first, and the state they end in, if no step stops (R102). -/
def runResponses : Nat → State → Option (List Response × State)
  | 0, s => some ([], s)
  | k + 1, s =>
    match step s with
    | .next s' => (runResponses k s').map fun r => (answer s s' ++ r.1, r.2)
    | .fault _ => none
    | .refused _ => none

end Sys2Proof.Machine
end

