-- ==== Sys2Proof/Machine/Instances.lean ====
section
/-! DEFINITION. Several engines side by side (00_scope.md R7, 60_exceptions.md R91): each is an agent with its own state
and its own command port, and nothing is shared (10_state.md R27). -/

namespace Sys2Proof.Machine

/-- One engine of a platform with what its host has seen of it (70_reset_and_hazards.md R102). -/
structure Engine where
  /-- The engine's own state; after a stop, the state in which its host broke R97. -/
  state : State
  /-- The responses it has returned, oldest first. -/
  responses : List Response
  /-- Why this engine has no next state, if it has none (93_implementation_defined.md U4). -/
  stop : Option Refusal
  deriving DecidableEq, Repr

/-- An engine at power-on to which its host will send `events` (70_reset_and_hazards.md R94, R106). -/
def launchEngine (events : List HostEvent) : Engine := { state := launch events, responses := [], stop := none }

/-- One step of one engine: its response goes to its host; a refusal stops this engine, keeping all that it did before,
and an engine that has stopped stays as it is (log 9). -/
def engineStep (e : Engine) : Engine :=
  match e.stop with
  | some _ => e
  | none =>
    match step e.state with
    | .next s => { e with state := s, responses := e.responses ++ answer e.state s }
    | .fault r => nomatch r
    | .refused r => { e with stop := some r }

/-- N_INSTANCES engines; the number is an argument (00_scope.md R7). -/
abbrev Platform (n : Nat) := Vector Engine n

/-- One step of engine k; the others do not move, and whatever engine k does, they can go on (10_state.md R27,
70_reset_and_hazards.md R104). -/
def stepAt {n : Nat} (k : Fin n) (p : Platform n) : Platform n := p.set k (engineStep p[k])

/-- One interleaving of the engines' steps: who moves, in order (60_exceptions.md R91; log 9). -/
def runSchedule {n : Nat} (order : List (Fin n)) (p : Platform n) : Platform n := order.foldl (fun q k => stepAt k q) p

end Sys2Proof.Machine
end

