-- ==== Sys2Proof/Machine/Reference.lean ====
section
/-! DEFINITION. What the commands are measured against: the closed form Keccak256(m) (41_sponge_commands.md R77) and the
generators of the constant tables (40_permutation.md R66). No meaning of a command uses them. -/

namespace Sys2Proof.Machine

/-- `S[8i+7] ‖ ... ‖ S[8i]`, the lane whose byte j is `g j` (20_memory.md R29). -/
def laneOfBytes (g : Fin 8 → Byte) : Lane := g 7 ++ g 6 ++ g 5 ++ g 4 ++ g 3 ++ g 2 ++ g 1 ++ g 0

/-- The state array whose byte k is `f k` (20_memory.md R29). -/
def ofBytes (f : Fin 200 → Byte) : Lanes :=
  Vector.ofFn fun i : Fin 25 => laneOfBytes fun j => f ⟨8 * i.val + j.val, by omega⟩

/-- `P[k] ^= b`. -/
def xorAt (k : Nat) (b : Byte) (P : List Byte) : List Byte := P.modify k (· ^^^ b)

/-- The padded message: m with zeros to a whole number of blocks, DS at index N and PADEND at the last byte (R77). -/
def paddedMessage (m : List Byte) : List Byte :=
  let q := m.length / 136
  let c := m.length % 136
  xorAt (136 * q + 135) Config.padEnd (xorAt m.length Config.ds (m ++ List.replicate (136 - c) 0))

/-- `S[0..135] ^= P[136j .. 136j+135]` (R77). -/
def xorBlock (L : Lanes) (P : List Byte) (j : Nat) : Lanes :=
  ofBytes fun k => if k.val < 136 then getByte L k ^^^ P.getD (136 * j + k.val) 0 else getByte L k

/-- The state array that `Keccak256(m)` ends in: one block XOR and one KeccakF for each j in 0..q (R77). -/
def keccak256State (m : List Byte) : Lanes :=
  (List.range (m.length / 136 + 1)).foldl (fun L j => keccakF (xorBlock L (paddedMessage m) j)) zeroLanes

/-- `Keccak256(m)`, 32 bytes (R77). -/
def keccak256 (m : List Byte) : List Byte := digestBytes (keccak256State m)

/-- The walk of the rotation offsets (R66): from (x, y) at time t, `n` steps, each placing `((t+1)(t+2)/2) mod 64` at
lane x + 5y of the table and going on to (y, 2x + 3y). -/
def rhoWalk : (n t : Nat) → (x y : Fin 5) → Vector Nat 25 → Vector Nat 25
  | 0, _, _, _, table => table
  | n + 1, t, x, y, table =>
    rhoWalk n (t + 1) y (2 * x + 3 * y) (table.set (x.val + 5 * y.val) (((t + 1) * (t + 2) / 2) % 64))

/-- One step of the LFSR with polynomial x^8 + x^6 + x^5 + x^4 + 1 (R66). -/
def lfsrStep (r : BitVec 8) : BitVec 8 := (r <<< 1) ^^^ (if r.getLsbD 7 then 0x71 else 0)

/-- `rc(t)`, the output bit after t mod 255 steps from 1 (R66). -/
def lfsrBit (t : Nat) : Bool := (Nat.repeat lfsrStep (t % 255) 1).getLsbD 0

/-- The round constant of index i as R66 generates it: bit `2^j - 1` is `rc(j + 7i)` for j = 0..6. -/
def generatedConstant (i : Nat) : Lane :=
  (List.range 7).foldl (fun v j => if lfsrBit (j + 7 * i) then v ||| (1 <<< (2 ^ j - 1)) else v) 0

end Sys2Proof.Machine
end

