-- ==== Sys2Proof/Safety.lean ====
section
/-! DEFINITION. What counts as a well-kept state, a safe run and an equal view, in the terms the claims use. -/

namespace Sys2Proof.Safety

open Sys2Proof.Machine

/-- The invariants of 10_state.md R25 that relate fields: (c) Finalized means CURSOR = 0, (d) ECODE is 0 exactly when ERR
is 0. Parts (a), (b) and (e) hold by the types of `State`. -/
abbrev StateInv (s : State) : Prop :=
  (s.phase = .finalized → s.cursor = 0) ∧ (s.err = false → s.ecode = .ok) ∧ (s.err = true → s.ecode ≠ .ok)

/-- What the response port and the error record say of each other: a rejection on the port carries RDATA = 0
(30_encoding.md R49) and is recorded in ERR and ECODE (60_exceptions.md R83, R88). -/
abbrev PortInv (s : State) : Prop :=
  ∀ r, s.response = some r → r.rcode ≠ .ok → r.rdata = 0 ∧ s.err = true ∧ s.ecode = r.rcode

/-- The launch premise ResetState (70_reset_and_hazards.md R106). -/
abbrev ResetState (s : State) : Prop :=
  s.lanes = zeroLanes ∧ s.cursor = 0 ∧ s.phase = .absorbing ∧ s.err = false ∧ s.ecode = .ok

/-- The launch premise HostSerialises (70_reset_and_hazards.md R97, R106): no event of the host overlaps a command. The
third premise, NothingInFlight, holds of every state, since a state is a command boundary (R100). -/
abbrev HostSerialises (s : State) : Prop := ∀ e ∈ s.host, ∀ cmd data, e ≠ .overlapped cmd data

/-- A host program used the engine correctly: no response has RCODE other than 0 (60_exceptions.md R93). -/
abbrev UsedCorrectly (responses : List Response) : Prop := ∀ r ∈ responses, r.rcode = .ok

/-- The digest lanes `L[0..3]` agree (10_state.md R21). -/
abbrev SameDigest (L M : Lanes) : Prop := L[0] = M[0] ∧ L[1] = M[1] ∧ L[2] = M[2] ∧ L[3] = M[3]

/-- Two states that agree on everything the host may observe now: the control state, the ports, and the digest lanes
while Finalized (60_exceptions.md R92, 70_reset_and_hazards.md R102). -/
abbrev SameView (s t : State) : Prop :=
  s.cursor = t.cursor ∧ s.phase = t.phase ∧ s.err = t.err ∧ s.ecode = t.ecode ∧ s.response = t.response ∧ s.host = t.host ∧
    (s.phase = .finalized → SameDigest s.lanes t.lanes)

/-- Two states that can never be told apart from here on: equal, or both Finalized and equal but for lanes 4..24
(93_implementation_defined.md U3). -/
abbrev Indistinguishable (s t : State) : Prop := s = t ∨ (s.phase = .finalized ∧ SameView s t)

end Sys2Proof.Safety
end

