-- ==== Sys2Proof/Certificates/Slice0/Obligations.lean ====
section
/-! DEFINITION. The statements for the provers, from the numbered rules of spec/. A command's own result is written out
field by field, so it is also the command's frame: what the record update does not name is unchanged. -/

open Sys2Proof Sys2Proof.Machine Sys2Proof.Safety

/-! ### Encoding -/

/-- The round trip of every well-formed command (30_encoding.md R41, R46, R47, R51). -/
def Obligations.DecodeOfEncodeIsTheCommand : Prop :=
  ∀ i : Instr, i.wellFormed = true → decode (encode i).1 (encode i).2 = .ok i

/-- 30_encoding.md R47: Decode is total, and is Illegal or the case of OPC. -/
def Obligations.DecodeFollowsLegalAndOpcode : Prop :=
  ∀ (cmd : Cmd) (data : Lane),
    (legal cmd = false → ∃ e, decode cmd data = .error e) ∧
    (legal cmd = true →
      (opcOf cmd = 0x0 ∧ decode cmd data = .ok .reset) ∨
      (opcOf cmd = 0x1 ∧ decode cmd data = .ok (.absorb (cntOf cmd) data)) ∨
      (opcOf cmd = 0x2 ∧ decode cmd data = .ok .finalize) ∨
      (opcOf cmd = 0x3 ∧ decode cmd data = .ok (.readDigest (cntOf cmd))) ∨
      (opcOf cmd = 0x4 ∧ decode cmd data = .ok .readStatus))

/-- 30_encoding.md R46: the 16 legal command words and their commands. -/
def Obligations.SixteenWordsAreLegal : Prop :=
  (∀ cmd : Cmd, legal cmd = true ↔
    cmd ∈ [0x0000, 0x0001, 0x0011, 0x0021, 0x0031, 0x0041, 0x0051, 0x0061, 0x0071, 0x0081, 0x0002,
      0x0003, 0x0013, 0x0023, 0x0033, 0x0004]) ∧
  (∀ data : Lane,
    decode 0x0000 data = .ok .reset ∧
    (∀ n : Nat, n ≤ 8 → decode (BitVec.ofNat 16 (16 * n + 1)) data = .ok (.absorb (BitVec.ofNat 4 n) data)) ∧
    decode 0x0002 data = .ok .finalize ∧
    (∀ w : Nat, w ≤ 3 → decode (BitVec.ofNat 16 (16 * w + 3)) data = .ok (.readDigest (BitVec.ofNat 4 w))) ∧
    decode 0x0004 data = .ok .readStatus)

/-- The classes of illegal words (30_encoding.md R45), each under the decoder's own name for it. -/
def Obligations.IllegalWordsAreNamedByClass : Prop :=
  ∀ (cmd : Cmd) (data : Lane),
    (rsvOf cmd ≠ 0 → decode cmd data = .error .reservedBits) ∧
    (rsvOf cmd = 0 → 5 ≤ (opcOf cmd).toNat → decode cmd data = .error .reservedOpcode) ∧
    (rsvOf cmd = 0 → opcOf cmd = 1 → 9 ≤ (cntOf cmd).toNat → decode cmd data = .error .countRange) ∧
    (rsvOf cmd = 0 → opcOf cmd = 3 → 4 ≤ (cntOf cmd).toNat → decode cmd data = .error .countRange) ∧
    (rsvOf cmd = 0 → opcOf cmd = 0 ∨ opcOf cmd = 2 ∨ opcOf cmd = 4 → cntOf cmd ≠ 0 →
      decode cmd data = .error .countRange)

/-- Command words written out bit by bit as RSV, CNT, OPC (30_encoding.md R41, R43). -/
def Obligations.WrittenOutWordsDecode : Prop :=
  decode 0b00000000_0000_0000 0 = .ok .reset ∧
  decode 0b00000000_0011_0001 0x636261 = .ok (.absorb 3 0x636261) ∧
  decode 0b00000000_1000_0001 7 = .ok (.absorb 8 7) ∧
  decode 0b00000000_0000_0010 5 = .ok .finalize ∧
  decode 0b00000000_0010_0011 0 = .ok (.readDigest 2) ∧
  decode 0b00000000_0000_0100 0 = .ok .readStatus

/-! ### The step -/

/-- A step runs the decoded command (41_sponge_commands.md R68): around `exec` it only takes the transaction from the
command port. -/
def Obligations.StepRunsTheDecodedCommand : Prop :=
  ∀ (s : State) (cmd : Cmd) (data : Lane) (rest : List HostEvent) (i : Instr),
    s.host = .command cmd data :: rest → decode cmd data = .ok i → step s = exec i { s with host := rest }

/-- 30_encoding.md R44: a word for which the legality predicate, written out, is false is rejected with ILLEGAL_CMD,
whatever the phase, and only ERR, ECODE and the response change. -/
def Obligations.StepRejectsIllegalWords : Prop :=
  ∀ (s : State) (cmd : Cmd) (data : Lane) (rest : List HostEvent),
    s.host = .command cmd data :: rest →
      ¬ (rsvOf cmd = 0x00 ∧
          ((opcOf cmd = 0x0 ∧ cntOf cmd = 0) ∨ (opcOf cmd = 0x1 ∧ (cntOf cmd).toNat ≤ 8) ∨
           (opcOf cmd = 0x2 ∧ cntOf cmd = 0) ∨ (opcOf cmd = 0x3 ∧ (cntOf cmd).toNat ≤ 3) ∨
           (opcOf cmd = 0x4 ∧ cntOf cmd = 0))) →
      step s = .next { s with host := rest, err := true, ecode := .illegalCmd, response := some ⟨.illegalCmd, 0⟩ }

/-- An engine with nothing at its command port waits (the model's choice, log 2). -/
def Obligations.IdleEngineWaits : Prop :=
  ∀ s : State, s.host = [] → step s = .next s

/-- A host that acts before the response is refused by name (93_implementation_defined.md U4, log 4). -/
def Obligations.OverlappingHostIsRefused : Prop :=
  ∀ (s : State) (cmd : Cmd) (data : Lane) (rest : List HostEvent),
    s.host = .overlapped cmd data :: rest → step s = .refused .hostOverlap

/-- 70_reset_and_hazards.md R94: the RESET command, power-on and a hardware reset each put the engine into the reset
state. -/
def Obligations.EveryResetSourceGivesTheResetState : Prop :=
  (∀ s : State, ∃ t, exec .reset s = .next t ∧ ResetState t) ∧
  ResetState State.reset ∧
  (∀ (s : State) (rest : List HostEvent), s.host = .hardReset :: rest →
    ∃ t, step s = .next t ∧ ResetState t ∧ t.host = rest)

/-- Every command the host issues serially is answered, and the host's events are taken in order
(60_exceptions.md R87, 70_reset_and_hazards.md R101, R105, 20_memory.md R37). -/
def Obligations.SerialHostIsAlwaysAnswered : Prop :=
  ∀ s : State, HostSerialises s →
    ∃ t, step s = .next t ∧ HostSerialises t ∧
      ∀ (cmd : Cmd) (data : Lane) (rest : List HostEvent), s.host = .command cmd data :: rest →
        t.host = rest ∧ ∃ r, t.response = some r

/-! ### Results of the commands -/

/-- 41_sponge_commands.md R70 and 70_reset_and_hazards.md R95: RESET in any state; it is idempotent, STATUS is 0, and
READ_DIGEST is then rejected with NO_DIGEST. -/
def Obligations.ResetIsTotalAndIdempotent : Prop :=
  ∀ s : State, ∃ t, exec .reset s = .next t ∧
    t = { lanes := Vector.replicate 25 0, cursor := 0, phase := .absorbing, err := false, ecode := .ok,
          response := some ⟨.ok, 0⟩, host := s.host } ∧
    exec .reset t = .next t ∧
    statusWord t = 0x0000 ∧
    ∀ w : BitVec 4, w.toNat ≤ 3 →
      exec (.readDigest w) t = .next { t with err := true, ecode := .noDigest, response := some ⟨.noDigest, 0⟩ }

/-- 41_sponge_commands.md R69: AbsorbByte. -/
def Obligations.AbsorbByteFollowsTheCursor : Prop :=
  ∀ (b : Byte) (s : State), ∃ L : Lanes,
    (∀ k : Fin 200, getByte L k = if k.val = s.cursor.val then getByte s.lanes k ^^^ b else getByte s.lanes k) ∧
    (s.cursor.val + 1 = 136 → absorbByte b s = { s with lanes := keccakF L, cursor := 0 }) ∧
    (∀ h : s.cursor.val + 1 < 136, absorbByte b s = { s with lanes := L, cursor := ⟨s.cursor.val + 1, h⟩ })

/-- 41_sponge_commands.md R71: ABSORB performs n AbsorbBytes in increasing k, and is rejected while Finalized, for n = 0
too. -/
def Obligations.AbsorbPerformsItsAbsorbBytes : Prop :=
  ∀ (n : BitVec 4) (data : Lane) (s : State), n.toNat ≤ 8 →
    (s.phase = .absorbing →
      exec (.absorb n data) s =
        .next { (List.range n.toNat).foldl (fun t k => absorbByte (byteOf data k) t) s with
                response := some ⟨.ok, 0⟩ }) ∧
    (s.phase = .finalized →
      exec (.absorb n data) s = .next { s with err := true, ecode := .usageError, response := some ⟨.usageError, 0⟩ })

/-- ABSORB that stays inside the block, byte by byte, with its frame (41_sponge_commands.md R69, R71, 20_memory.md R35). -/
def Obligations.AbsorbInsideTheBlock : Prop :=
  ∀ (n : BitVec 4) (data : Lane) (s : State), n.toNat ≤ 8 → s.phase = .absorbing → s.cursor.val + n.toNat < 136 →
    ∃ t, exec (.absorb n data) s = .next t ∧
      (∀ k : Fin 200, getByte t.lanes k =
        if s.cursor.val ≤ k.val ∧ k.val < s.cursor.val + n.toNat
        then getByte s.lanes k ^^^ byteOf data (k.val - s.cursor.val) else getByte s.lanes k) ∧
      t.cursor.val = s.cursor.val + n.toNat ∧
      t.phase = s.phase ∧ t.err = s.err ∧ t.ecode = s.ecode ∧ t.host = s.host ∧ t.response = some ⟨.ok, 0⟩

/-- ABSORB that reaches the block boundary: the first bytes complete the block, one permutation runs, and the rest go in
at byte 0 of the permuted array (41_sponge_commands.md R69, R71). -/
def Obligations.AbsorbAcrossTheBlockBoundary : Prop :=
  ∀ (n : BitVec 4) (data : Lane) (s : State), n.toNat ≤ 8 → s.phase = .absorbing → 136 ≤ s.cursor.val + n.toNat →
    ∃ (L : Lanes) (t : State), exec (.absorb n data) s = .next t ∧
      (∀ k : Fin 200, getByte L k =
        if s.cursor.val ≤ k.val ∧ k.val < 136
        then getByte s.lanes k ^^^ byteOf data (k.val - s.cursor.val) else getByte s.lanes k) ∧
      (∀ k : Fin 200, getByte t.lanes k =
        if k.val < s.cursor.val + n.toNat - 136
        then getByte (keccakF L) k ^^^ byteOf data (136 - s.cursor.val + k.val) else getByte (keccakF L) k) ∧
      t.cursor.val = s.cursor.val + n.toNat - 136 ∧
      t.phase = s.phase ∧ t.err = s.err ∧ t.ecode = s.ecode ∧ t.host = s.host ∧ t.response = some ⟨.ok, 0⟩

/-- 41_sponge_commands.md R72 and R73: FINALIZE pads (both pads hit byte 135 when CURSOR = 135), permutes once, and makes
the digest readable; while Finalized it is rejected. -/
def Obligations.FinalizePadsAndPermutesOnce : Prop :=
  ∀ s : State,
    (s.phase = .absorbing → ∃ P : Lanes,
      (∀ k : Fin 200, getByte P k =
        if k.val = 135 then (if s.cursor.val = 135 then getByte s.lanes k ^^^ 0x81 else getByte s.lanes k ^^^ 0x80)
        else if k.val = s.cursor.val then getByte s.lanes k ^^^ 0x01 else getByte s.lanes k) ∧
      exec .finalize s =
        .next { s with lanes := keccakF P, cursor := 0, phase := .finalized, response := some ⟨.ok, 0⟩ }) ∧
    (s.phase = .finalized →
      exec .finalize s = .next { s with err := true, ecode := .usageError, response := some ⟨.usageError, 0⟩ })

/-- 41_sponge_commands.md R74: READ_DIGEST returns lane w, the digest bytes 8w to 8w+7 low byte first, and writes no
state; while Absorbing it is rejected. -/
def Obligations.ReadDigestReturnsTheLane : Prop :=
  ∀ (w : Fin 4) (s : State),
    (s.phase = .finalized →
      exec (.readDigest (BitVec.ofNat 4 w.val)) s = .next { s with response := some ⟨.ok, s.lanes[w.val]⟩ }) ∧
    (∀ j : Fin 8, byteOf s.lanes[w.val] j.val = getByte s.lanes ⟨8 * w.val + j.val, by omega⟩) ∧
    (s.phase = .absorbing →
      exec (.readDigest (BitVec.ofNat 4 w.val)) s =
        .next { s with err := true, ecode := .noDigest, response := some ⟨.noDigest, 0⟩ })

/-- 41_sponge_commands.md R75 and 10_state.md R20: READ_STATUS answers in every phase, writes no state, and each field of
the word stands where the layout puts it. -/
def Obligations.ReadStatusReturnsTheLayout : Prop :=
  ∀ s : State, ∃ d : Lane, exec .readStatus s = .next { s with response := some ⟨.ok, d⟩ } ∧
    d.extractLsb' 0 2 = (if s.phase = .absorbing then 0 else 2) ∧
    d.getLsbD 2 = decide (s.phase = .finalized) ∧
    d.getLsbD 3 = s.err ∧
    (d.extractLsb' 4 2).toNat =
      (match s.ecode with | .ok => 0 | .usageError => 1 | .illegalCmd => 2 | .noDigest => 3) ∧
    d.extractLsb' 6 2 = 0 ∧
    (d.extractLsb' 8 8).toNat = s.cursor.val ∧
    d.extractLsb' 16 48 = 0

/-- A count the encoding does not admit, given to a meaning directly, is rejected as its word would be (60_exceptions.md
R85; the model's choice, log 6). -/
def Obligations.IllFormedCountsAreRejected : Prop :=
  ∀ (n : BitVec 4) (data : Lane) (s : State),
    (9 ≤ n.toNat → exec (.absorb n data) s =
      .next { s with err := true, ecode := .illegalCmd, response := some ⟨.illegalCmd, 0⟩ }) ∧
    (4 ≤ n.toNat → exec (.readDigest n) s =
      .next { s with err := true, ecode := .illegalCmd, response := some ⟨.illegalCmd, 0⟩ })

/-! ### Rejection and the error record -/

/-- 60_exceptions.md R83: a rejected command, illegal words included, changes ERR, ECODE and the response, and nothing
else. -/
def Obligations.RejectionIsPrecise : Prop :=
  ∀ (s t : State) (cmd : Cmd) (data : Lane) (rest : List HostEvent),
    s.host = .command cmd data :: rest → step s = .next t →
      ∃ r, t.response = some r ∧
        (r.rcode ≠ .ok → t = { s with host := rest, err := true, ecode := r.rcode, response := some ⟨r.rcode, 0⟩ })

/-- 60_exceptions.md R84, R85 and R86: which command raises which code, and when, and what is recorded; a legal RESET or
READ_STATUS is never rejected, and ILLEGAL_CMD wins over the phase checks. -/
def Obligations.RejectionCausesByCommand : Prop :=
  ∀ (s t : State) (cmd : Cmd) (data : Lane) (rest : List HostEvent),
    s.host = .command cmd data :: rest → step s = .next t →
      (t.response.map Response.rcode = some .illegalCmd ↔ legal cmd = false) ∧
      (t.response.map Response.rcode = some .usageError ↔
        legal cmd = true ∧ (opcOf cmd = 0x1 ∨ opcOf cmd = 0x2) ∧ s.phase = .finalized) ∧
      (t.response.map Response.rcode = some .noDigest ↔
        legal cmd = true ∧ opcOf cmd = 0x3 ∧ s.phase = .absorbing) ∧
      ∀ r, t.response = some r → r.rcode ≠ .ok → t.err = true ∧ t.ecode = r.rcode

/-- 10_state.md R19: a rejection overwrites ECODE, and an accepted command other than RESET leaves ERR and ECODE as they
are. -/
def Obligations.AcceptedCommandsKeepTheErrorRecord : Prop :=
  ∀ (i : Instr) (s t : State) (r : Response), exec i s = .next t → t.response = some r →
    (r.rcode = .ok → i ≠ .reset → t.err = s.err ∧ t.ecode = s.ecode) ∧
    (r.rcode ≠ .ok → t.err = true ∧ t.ecode = r.rcode)

/-- 10_state.md R18 and 60_exceptions.md R88: only RESET, or a hardware reset, clears ERR. -/
def Obligations.OnlyResetClearsTheError : Prop :=
  ∀ s t : State, step s = .next t → s.err = true → t.err = false →
    (∃ data rest, s.host = .command 0x0000 data :: rest) ∨ (∃ rest, s.host = .hardReset :: rest)

/-- 10_state.md R21 and 60_exceptions.md R88: while Finalized, S and CURSOR are immutable, and only RESET, or a hardware
reset, leaves the phase. -/
def Obligations.DigestIsImmutableUntilReset : Prop :=
  ∀ s t : State, step s = .next t → s.phase = .finalized →
    (t.phase = .finalized ∧ t.lanes = s.lanes ∧ t.cursor = s.cursor) ∨
    (ResetState t ∧
      ((∃ data rest, s.host = .command 0x0000 data :: rest) ∨ (∃ rest, s.host = .hardReset :: rest)))

/-- 41_sponge_commands.md R70 and R73: only FINALIZE makes a digest readable, so after RESET READ_DIGEST is rejected until
the next FINALIZE. -/
def Obligations.OnlyFinalizeMakesADigest : Prop :=
  ∀ s t : State, step s = .next t → s.phase = .absorbing → t.phase = .finalized →
    ∃ data rest, s.host = .command 0x0002 data :: rest

/-- 60_exceptions.md R93: in a run with no RESET that starts with ERR = 0, 'no response has RCODE other than 0' is the
same as 'ERR = 0 at the end'. -/
def Obligations.CorrectUseIsErrZeroAtTheEnd : Prop :=
  ∀ (k : Nat) (s t : State) (rs : List Response),
    (∀ e ∈ s.host, ∃ cmd data, e = .command cmd data ∧ cmd ≠ 0x0000) → s.err = false →
      runResponses k s = some (rs, t) → (UsedCorrectly rs ↔ t.err = false)

/-- 30_encoding.md R50: DATA is ignored but for the low CNT bytes of a legal ABSORB. -/
def Obligations.IgnoredDataNeverMatters : Prop :=
  ∀ (cmd : Cmd) (data data' : Lane) (s : State),
    (opcOf cmd = 0x1 → legal cmd = true → ∀ k, k < (cntOf cmd).toNat → byteOf data k = byteOf data' k) →
      transact cmd data s = transact cmd data' s

/-! ### Invariants and whole-machine rules -/

/-- 10_state.md R25 (c) and (d), kept by every step; (a) and (b) hold by the types of CURSOR and PHASE. -/
def Obligations.EveryStepKeepsTheInvariants : Prop :=
  ∀ s t : State, StateInv s → step s = .next t → StateInv t

/-- The invariants of 10_state.md R25 at power-on. -/
def Obligations.InvariantsAtReset : Prop := StateInv State.reset ∧ PortInv State.reset

/-- A rejection on the response port carries no datum and is the one recorded (30_encoding.md R49, 60_exceptions.md R83). -/
def Obligations.EveryStepKeepsThePortInvariant : Prop :=
  ∀ s t : State, PortInv s → step s = .next t → PortInv t

/-- 10_state.md R15: the capacity lanes change only where a permutation or a reset runs. -/
def Obligations.CapacityChangesOnlyByPermutation : Prop :=
  ∀ (i : Instr) (s t : State), exec i s = .next t →
    (∀ j : Fin 8, t.lanes[17 + j.val] = s.lanes[17 + j.val]) ∨
    i = .reset ∨
    (i = .finalize ∧ s.phase = .absorbing) ∨
    (∃ n data, i = .absorb n data ∧ n.toNat ≤ 8 ∧ s.phase = .absorbing ∧ 136 ≤ s.cursor.val + n.toNat)

/-- 41_sponge_commands.md R80 and 30_encoding.md R49: every datum a command returns is 0, STATUS, or one of the four
digest lanes while Finalized. -/
def Obligations.OutputsAreStatusOrDigestLanes : Prop :=
  ∀ (i : Instr) (s : State), ∃ t r, exec i s = .next t ∧ t.response = some r ∧
    (r.rdata = 0 ∨
      (i = .readStatus ∧ r.rdata = (statusWord s).setWidth 64) ∨
      (s.phase = .finalized ∧ ∃ w : Fin 4, i = .readDigest (BitVec.ofNat 4 w.val) ∧ r.rdata = s.lanes[w.val]))

/-- What one step answers depends only on what the host may see before it (60_exceptions.md R92). -/
def Obligations.ResponsesDependOnTheViewAlone : Prop :=
  ∀ s t s' : State, SameView s t → step s = .next s' →
    ∃ t', step t = .next t' ∧ s'.response = t'.response ∧ s'.cursor = t'.cursor ∧ s'.phase = t'.phase ∧
      s'.err = t'.err ∧ s'.ecode = t'.ecode ∧ s'.host = t'.host

/-- 93_implementation_defined.md U3 and 41_sponge_commands.md R80: two states that differ only in lanes 4..24 while
Finalized are never told apart, however long the run goes on. -/
def Obligations.HiddenLanesNeverShow : Prop :=
  ∀ s t s' : State, Indistinguishable s t → step s = .next s' →
    ∃ t', step t = .next t' ∧ Indistinguishable s' t' ∧ answer s s' = answer t t'

/-! ### The Permutation Core -/

/-- 40_permutation.md R54: ROTL64 bit by bit, with the rotation by 0. -/
def Obligations.RotationMovesEveryBit : Prop :=
  ∀ (v : Lane) (n z : Nat), n < 64 → z < 64 →
    rotl64 v 0 = v ∧ (rotl64 v n).getLsbD z = v.getLsbD ((z + 64 - n) % 64)

/-- 40_permutation.md R55: theta, with the column sums written out, and its linearity over XOR. -/
def Obligations.ThetaMixesColumnParities : Prop :=
  (∀ (A : Lanes) (x y : Fin 5),
    laneAt (theta A) x y =
      laneAt A x y ^^^
        (laneAt A (x + 4) 0 ^^^ laneAt A (x + 4) 1 ^^^ laneAt A (x + 4) 2 ^^^ laneAt A (x + 4) 3 ^^^ laneAt A (x + 4) 4) ^^^
        rotl64 (laneAt A (x + 1) 0 ^^^ laneAt A (x + 1) 1 ^^^ laneAt A (x + 1) 2 ^^^ laneAt A (x + 1) 3 ^^^
          laneAt A (x + 1) 4) 1) ∧
  (∀ A B C : Lanes, (∀ x y, laneAt C x y = laneAt A x y ^^^ laneAt B x y) →
    ∀ x y, laneAt (theta C) x y = laneAt (theta A) x y ^^^ laneAt (theta B) x y)

/-- 40_permutation.md R56 and R57: rho by lane index, with the table. -/
def Obligations.RhoRotatesByTheTable : Prop :=
  ∃ r : Vector Nat 25,
    r = #v[0, 1, 62, 28, 27, 36, 44, 6, 55, 20, 3, 10, 43, 25, 39, 41, 45, 15, 21, 8, 18, 2, 61, 56, 14] ∧
    r.toList.Nodup ∧ (∀ i : Fin 25, r[i] < 64) ∧
    ∀ (A : Lanes) (i : Fin 25), (rho A)[i] = rotl64 A[i] r[i]

/-- 40_permutation.md R58: pi by coordinates, by the move of each lane, and by lane index. -/
def Obligations.PiMovesEveryLane : Prop :=
  ∀ A : Lanes,
    (∀ x y : Fin 5, laneAt (piStep A) x y = laneAt A (x + 3 * y) x) ∧
    (∀ x y : Fin 5, laneAt (piStep A) y (2 * x + 3 * y) = laneAt A x y) ∧
    (piStep A).toList = [0, 6, 12, 18, 24, 3, 9, 10, 16, 22, 1, 7, 13, 19, 20, 4, 5, 11, 17, 23, 2, 8, 14, 15, 21].map
      (fun j : Fin 25 => A[j])

/-- 40_permutation.md R59: chi row by row, with the corner cases of a zero row and of one all-ones lane. -/
def Obligations.ChiMixesEachRow : Prop :=
  ∀ A : Lanes,
    (∀ x y : Fin 5,
      laneAt (chi A) x y = laneAt A x y ^^^ ((~~~(laneAt A (x + 1) y)) &&& laneAt A (x + 2) y)) ∧
    (∀ y : Fin 5, (∀ x, laneAt A x y = 0) → ∀ x, laneAt (chi A) x y = 0) ∧
    (∀ x y : Fin 5, (∀ x', laneAt A x' y = if x' = x then BitVec.allOnes 64 else 0) →
      ∀ x', laneAt (chi A) x' y = if x' = x ∨ x' = x + 3 then BitVec.allOnes 64 else 0)

/-- 40_permutation.md R60 and R61: iota, with the table row by row (RC[k] and RC[k + 12] in row k), changes lane 0
alone. -/
def Obligations.IotaChangesLaneZeroAlone : Prop :=
  ∃ rc : Fin 24 → Lane,
    (List.finRange 12).map (fun k => (rc ⟨k.val, by omega⟩, rc ⟨k.val + 12, by omega⟩)) =
      [(0x0000000000000001, 0x000000008000808B),
       (0x0000000000008082, 0x800000000000008B),
       (0x800000000000808A, 0x8000000000008089),
       (0x8000000080008000, 0x8000000000008003),
       (0x000000000000808B, 0x8000000000008002),
       (0x0000000080000001, 0x8000000000000080),
       (0x8000000080008081, 0x000000000000800A),
       (0x8000000000008009, 0x800000008000000A),
       (0x000000000000008A, 0x8000000080008081),
       (0x0000000000000088, 0x8000000000008080),
       (0x0000000080008009, 0x0000000080000001),
       (0x000000008000000A, 0x8000000080008008)] ∧
    ∀ (A : Lanes) (i : Fin 24),
      (iota A i)[0] = A[0] ^^^ rc i ∧ ∀ j : Fin 25, j ≠ 0 → (iota A i)[j] = A[j]

/-- 40_permutation.md R62 and R63: a round is theta, rho, pi, chi, iota in this order; KeccakF is the 24 rounds of index
0 to 23 in increasing order; and the examples that the two rules give on the all-zero array. -/
def Obligations.KeccakFIsTwentyFourRounds : Prop :=
  (∀ (A : Lanes) (i : Fin 24), keccakRound A i = iota (chi (piStep (rho (theta A)))) i) ∧
  (∀ A : Lanes, ∃ B : Nat → Lanes,
    B 0 = A ∧ (∀ i : Fin 24, B (i.val + 1) = iota (chi (piStep (rho (theta (B i.val))))) i) ∧ keccakF A = B 24) ∧
  keccakRound (Vector.replicate 25 0) 0 = (Vector.replicate 25 0).set 0 0x0000000000000001 ∧
  (keccakF (Vector.replicate 25 0))[0] = 0xF1258F7940E1DDE7

/-- 40_permutation.md R66: the embedded tables are what the generators give. -/
def Obligations.TablesMatchTheirGenerators : Prop :=
  rhoWalk 24 0 1 0 (Vector.replicate 25 0) = rhoOffsets ∧
  ∀ i : Fin 24, roundConstant i = generatedConstant i.val

/-! ### The state array -/

/-- 20_memory.md R29: byte k is byte k mod 8 of lane k div 8, bit by bit, so each bit of the array has one place. -/
def Obligations.BytesAreLittleEndianInLanes : Prop :=
  (∀ (L : Lanes) (i : Fin 25) (z : Fin 64),
    (L[i]).getLsbD z.val = (getByte L ⟨8 * i.val + z.val / 8, by omega⟩).getLsbD (z.val % 8)) ∧
  (∀ (L : Lanes) (i : Fin 25), memRead L (8 * i.val) 8 (by omega) = L[i])

/-- A byte write reaches its byte alone, and MemRead after MemWrite gives the bytes written (00_scope.md R10). -/
def Obligations.WritesReachTheirBytesAlone : Prop :=
  (∀ (L : Lanes) (j k : Fin 200) (b : Byte), getByte (setByte L k b) j = if j = k then b else getByte L j) ∧
  (∀ (L : Lanes) (k n : Nat) (h : k + n ≤ 200) (v : Lane), n ≤ 8 →
    (∀ j : Fin 200, getByte (memWrite L k v n h) j =
      if k ≤ j.val ∧ j.val < k + n then byteOf v (j.val - k) else getByte L j) ∧
    ∀ j, j < n → byteOf (memRead (memWrite L k v n h) k n h) j = byteOf v j)

/-! ### Runs -/

/-- `UPDATE m` on an absorbing engine is accepted command by command and absorbs exactly the bytes of m in order
(30_encoding.md R52). -/
def Obligations.UpdateAbsorbsItsBytes : Prop :=
  ∀ (s : State) (m : List Byte) (rest : List HostEvent), s.phase = .absorbing →
    runResponses (updateProgram m).length { s with host := updateProgram m ++ rest } =
      some (List.replicate (updateProgram m).length ⟨.ok, 0⟩,
        { absorbBytes m s with response := some ⟨.ok, 0⟩, host := rest })

/-- 41_sponge_commands.md R76: a sequence of ABSORBs reaches the state of the AbsorbBytes of its concatenated bytes,
however they are split; and splitting a byte string into two UPDATEs reaches the same S, CURSOR and PHASE as one UPDATE, in
either phase. -/
def Obligations.StreamingEquivalence : Prop :=
  (∀ (s : State) (cs : List (BitVec 4 × Lane)), s.phase = .absorbing → (∀ c ∈ cs, c.1.toNat ≤ 8) →
    ∃ rs a,
      runResponses cs.length { s with host := cs.map fun c => commandEvent (.absorb c.1 c.2) } = some (rs, a) ∧
      a.lanes = (absorbBytes (cs.flatMap fun c => dataBytes c.1.toNat c.2) s).lanes ∧
      a.cursor = (absorbBytes (cs.flatMap fun c => dataBytes c.1.toNat c.2) s).cursor ∧
      a.phase = .absorbing) ∧
  ∀ (s : State) (x y : List Byte),
    ∃ rs a rs' b,
      runResponses (updateProgram x ++ updateProgram y).length { s with host := updateProgram x ++ updateProgram y } =
        some (rs, a) ∧
      runResponses (updateProgram (x ++ y)).length { s with host := updateProgram (x ++ y) } = some (rs', b) ∧
      a.lanes = b.lanes ∧ a.cursor = b.cursor ∧ a.phase = b.phase

/-- 41_sponge_commands.md R77: from the reset state, absorbing m and then FINALIZE leaves Keccak256(m) in S[0..31], with
one application of KeccakF for each of the N div 136 + 1 blocks. -/
def Obligations.AbsorbThenFinalizeIsKeccak256 : Prop :=
  ∀ (s : State) (m : List Byte), ResetState s →
    ∃ t, exec .finalize (absorbBytes m s) = .next t ∧
      t.lanes = keccak256State m ∧ digestBytes t.lanes = keccak256 m ∧ t.cursor = 0 ∧ t.phase = .finalized

/-- 30_encoding.md R53: `HASH m`, sent to an engine in any state, is accepted command by command, and its last four
responses carry Keccak256(m). -/
def Obligations.HashProgramReturnsKeccak256 : Prop :=
  ∀ (s : State) (m : List Byte) (rest : List HostEvent),
    ∃ (acks : List Response) (words : List Lane) (t : State),
      runResponses (hashProgram m).length { s with host := hashProgram m ++ rest } =
        some (acks ++ words.map (fun w => ⟨.ok, w⟩), t) ∧
      (∀ r ∈ acks, r = ⟨.ok, 0⟩) ∧ words.length = 4 ∧ wordsToBytes words = keccak256 m ∧
      t.host = rest ∧ t.phase = .finalized ∧ t.cursor = 0 ∧ t.err = false ∧ t.ecode = .ok

/-- 30_encoding.md R51: whatever line the assembler accepts, unless it is a raw word, stands for legal commands only. -/
def Obligations.AssembledCommandsAreLegal : Prop :=
  ∀ (line : List Char) (es : List HostEvent), assembleLine line = .ok es →
    (∀ e ∈ es, ∃ cmd data, e = .command cmd data ∧ legal cmd = true) ∨
    (∃ tail, line.dropWhile isSeparator = ['.', 'w', 'o', 'r', 'd', '1', '6'] ++ tail)

/-! ### Several engines -/

/-- 10_state.md R27 and 70_reset_and_hazards.md R104: under every interleaving, and whatever the other engines and their
hosts do, an engine ends with the state and the responses that its own steps alone give it; where its own host breaks R97
it stops, and it alone (log 9). The right-hand sides name nothing of another engine. -/
def Obligations.EnginesAreIsolated : Prop :=
  ∀ (n : Nat) (order : List (Fin n)) (p : Platform n) (k : Fin n),
    (p[k].stop = none →
      (∃ rs s, runResponses (order.count k) p[k].state = some (rs, s) ∧
        Host.Core.run Sys2Proof.core (order.count k) p[k].state = .next s ∧
        (runSchedule order p)[k] = ⟨s, p[k].responses ++ rs, none⟩) ∨
      (∃ m rs s r, m < order.count k ∧ runResponses m p[k].state = some (rs, s) ∧ step s = .refused r ∧
        Host.Core.run Sys2Proof.core (order.count k) p[k].state = .refused r ∧
        (runSchedule order p)[k] = ⟨s, p[k].responses ++ rs, some r⟩)) ∧
    (p[k].stop ≠ none → (runSchedule order p)[k] = p[k])

/-- 70_reset_and_hazards.md R104: an engine whose own host serialises returns all its responses, and stops never, even
where every other host breaks serialisation. -/
def Obligations.SerialHostIsAnsweredBesideAnyOthers : Prop :=
  ∀ (n : Nat) (order : List (Fin n)) (p : Platform n) (k : Fin n),
    p[k].stop = none → HostSerialises p[k].state →
      ∃ rs s, runResponses (order.count k) p[k].state = some (rs, s) ∧
        (runSchedule order p)[k] = ⟨s, p[k].responses ++ rs, none⟩

/-- 20_memory.md R37: the steps of two engines commute, stops included. -/
def Obligations.EnginesCommute : Prop :=
  ∀ (n : Nat) (j k : Fin n) (p : Platform n), j ≠ k →
    stepAt k (stepAt j p) = stepAt j (stepAt k p) ∧
    (stepAt k (stepAt j p))[j] = engineStep p[j] ∧ (stepAt k (stepAt j p))[k] = engineStep p[k]
end

