-- ==== Sys2Proof/Laws/Bytes.lean ====
section
/-! SUPPORT. The byte, lane and grid views of the state array agree (10_state.md R13, R14, 20_memory.md R29, R30). -/

namespace Sys2Proof.Machine

/-! ### Bytes of one lane -/

theorem byteOf_getLsbD (v : Lane) (j z : Nat) :
    (byteOf v j).getLsbD z = (decide (z < 8) && v.getLsbD (8 * j + z)) := by
  simp [byteOf]

theorem byteMask_getLsbD (z : Nat) : (0xFF#64).getLsbD z = decide (z < 8) := by
  by_cases h : z < 8
  · interval_cases z <;> rfl
  · have : (255 : Nat) < 2 ^ z := lt_of_lt_of_le (by norm_num : 255 < 2 ^ 8) (Nat.pow_le_pow_right (by norm_num) (by omega))
    simp [BitVec.getLsbD, Nat.testBit_lt_two_pow this, h]

/-- Every bit of a lane after one byte is replaced. -/
theorem replaceByte_getLsbD (v : Lane) (j : Nat) (hj : j < 8) (b : Byte) (z : Nat) :
    (replaceByte v j b).getLsbD z
      = if 8 * j ≤ z ∧ z < 8 * j + 8 then b.getLsbD (z - 8 * j) else v.getLsbD z := by
  have hv : ¬ z < 64 → v.getLsbD z = false := fun h => BitVec.getLsbD_of_ge v z (by omega)
  have hb : ¬ z - 8 * j < 8 → b.getLsbD (z - 8 * j) = false := fun h => BitVec.getLsbD_of_ge b _ (by omega)
  simp only [replaceByte, BitVec.getLsbD_or, BitVec.getLsbD_and, BitVec.getLsbD_not, BitVec.getLsbD_shiftLeft,
    BitVec.getLsbD_setWidth, byteMask_getLsbD]
  by_cases hz : z < 64 <;> by_cases hl : z < 8 * j <;> by_cases hu : z - 8 * j < 8 <;>
    simp only [hz, hl, hu, decide_true, decide_false, Bool.true_and, Bool.false_and, Bool.not_true, Bool.not_false,
      Bool.and_true, Bool.and_false, Bool.or_false, Bool.false_or, hv, hb, not_false_eq_true] <;>
    split <;> first | rfl | omega | (simp; omega)

/-- A byte put into a lane is read back; the lane's other bytes are untouched. -/
theorem byteOf_replaceByte (v : Lane) (i j : Nat) (hj : j < 8) (b : Byte) :
    byteOf (replaceByte v j b) i = if i = j then b else byteOf v i := by
  apply BitVec.eq_of_getLsbD_eq
  intro z hz
  rw [byteOf_getLsbD, replaceByte_getLsbD v j hj]
  by_cases h : i = j
  · subst h
    simp [hz]
  · rw [if_neg (by omega), if_neg h, byteOf_getLsbD]

/-- A lane is its eight bytes. -/
theorem lane_ext_bytes {v w : Lane} (h : ∀ j < 8, byteOf v j = byteOf w j) : v = w := by
  apply BitVec.eq_of_getLsbD_eq
  intro z hz
  have := congrArg (BitVec.getLsbD · (z % 8)) (h (z / 8) (by omega))
  simpa only [byteOf_getLsbD, Nat.mod_lt z (by norm_num : 0 < 8), decide_true, Bool.true_and, Nat.div_add_mod] using this

theorem byteOf_xor (v w : Lane) (j : Nat) : byteOf (v ^^^ w) j = byteOf v j ^^^ byteOf w j := by
  apply BitVec.eq_of_getLsbD_eq
  intro z hz
  simp only [byteOf_getLsbD, BitVec.getLsbD_xor, hz, decide_true, Bool.true_and]

/-- The bytes of a lane given byte by byte. -/
theorem byteOf_laneOfBytes (g : Fin 8 → Byte) (j : Fin 8) : byteOf (laneOfBytes g) j.val = g j := by
  apply BitVec.eq_of_getLsbD_eq
  intro z hz
  fin_cases j <;> interval_cases z <;>
    simp only [byteOf_getLsbD, laneOfBytes, BitVec.getLsbD_append] <;> rfl

/-! ### Bytes of the state array -/

/-- The one law of a byte write: it is read back at its place, and every other byte is as before. -/
theorem getByte_setByte (L : Lanes) (j k : Fin 200) (b : Byte) :
    getByte (setByte L k b) j = if j = k then b else getByte L j := by
  unfold getByte setByte
  rw [Vector.getElem_set]
  by_cases hl : k.val / 8 = j.val / 8
  · have : (j = k) ↔ j.val % 8 = k.val % 8 := by rw [Fin.ext_iff]; omega
    simp only [hl, if_true, byteOf_replaceByte _ _ _ (Nat.mod_lt k.val (by norm_num : 0 < 8)), this]
  · have : j ≠ k := by rintro rfl; exact hl rfl
    rw [if_neg hl, if_neg this]

/-- The one law of the engine's byte XOR. -/
theorem getByte_xorByte (L : Lanes) (j k : Fin 200) (b : Byte) :
    getByte (xorByte L k b) j = if j = k then getByte L j ^^^ b else getByte L j := by
  rw [xorByte, getByte_setByte]
  split
  · subst k; rfl
  · rfl

/-- Two state arrays with the same 200 bytes are equal. -/
theorem lanes_ext_bytes {L M : Lanes} (h : ∀ k, getByte L k = getByte M k) : L = M := by
  apply Vector.ext
  intro i hi
  apply lane_ext_bytes
  intro j hj
  have := h ⟨8 * i + j, by omega⟩
  simpa [getByte, show (8 * i + j) / 8 = i by omega, show (8 * i + j) % 8 = j by omega] using this

/-- Bit z of byte k is bit 8(k mod 8) + z of lane k div 8 (20_memory.md R30). -/
theorem getByte_getLsbD (L : Lanes) (k : Fin 200) (z : Nat) :
    (getByte L k).getLsbD z = (decide (z < 8) && (L[k.val / 8]).getLsbD (8 * (k.val % 8) + z)) :=
  byteOf_getLsbD _ _ _

@[simp] theorem getByte_zeroLanes (k : Fin 200) : getByte zeroLanes k = 0 := by
  simp [getByte, zeroLanes, byteOf]

/-- The bytes of an array given byte by byte. -/
@[simp] theorem getByte_ofBytes (f : Fin 200 → Byte) (k : Fin 200) : getByte (ofBytes f) k = f k := by
  unfold getByte ofBytes
  rw [Vector.getElem_ofFn, byteOf_laneOfBytes _ ⟨k.val % 8, Nat.mod_lt _ (by norm_num)⟩]
  simp only [Nat.div_add_mod]

/-! ### The grid -/

/-- A state array given lane by lane is read back (10_state.md R14). -/
@[simp] theorem laneAt_ofGrid (f : Fin 5 → Fin 5 → Lane) (x y : Fin 5) : laneAt (ofGrid f) x y = f x y := by
  fin_cases x <;> fin_cases y <;> rfl

/-- Two state arrays with the same grid are equal. -/
theorem lanes_ext_grid {A B : Lanes} (h : ∀ x y, laneAt A x y = laneAt B x y) : A = B := by
  apply Vector.ext
  intro i hi
  have := h ⟨i % 5, by omega⟩ ⟨i / 5, by omega⟩
  simpa [laneAt, Nat.mod_add_div] using this

end Sys2Proof.Machine
end

