-- ==== Sys2Proof/Laws/Decode.lean ====
section
/-! SUPPORT. The fields of an encoded word, and what the decoder answers field by field (30_encoding.md R41, R47). -/

namespace Sys2Proof

@[simp] theorem opcOf_cmdWord (cnt opc : BitVec 4) : opcOf (cmdWord cnt opc) = opc := by
  revert cnt opc; decide

@[simp] theorem cntOf_cmdWord (cnt opc : BitVec 4) : cntOf (cmdWord cnt opc) = cnt := by
  revert cnt opc; decide

@[simp] theorem rsvOf_cmdWord (cnt opc : BitVec 4) : rsvOf (cmdWord cnt opc) = 0 := by
  revert cnt opc; decide

/-- A word whose RSV is 0 is the word of its two other fields. -/
theorem cmdWord_of_fields (cmd : Cmd) (h : rsvOf cmd = 0) : cmdWord (cntOf cmd) (opcOf cmd) = cmd := by
  have hr : ∀ z, (rsvOf cmd).getLsbD z = false := fun z => by rw [h]; simp
  apply BitVec.eq_of_getLsbD_eq
  intro z hz
  have := hr (z - 8)
  simp only [rsvOf, BitVec.getLsbD_extractLsb'] at this
  simp only [cmdWord, cntOf, opcOf, BitVec.getLsbD_append, BitVec.getLsbD_extractLsb']
  interval_cases z <;> simp_all

/-- The decoder accepts a word exactly when the opcode admits its fields, and then answers the opcode's command. -/
theorem decode_ok (cmd : Cmd) (data : Lane) (i : Instr) :
    decode cmd data = .ok i ↔
      rsvOf cmd = 0 ∧
        ((opcOf cmd = 0 ∧ cntOf cmd = 0 ∧ i = .reset) ∨
         (opcOf cmd = 1 ∧ (cntOf cmd).toNat ≤ 8 ∧ i = .absorb (cntOf cmd) data) ∨
         (opcOf cmd = 2 ∧ cntOf cmd = 0 ∧ i = .finalize) ∨
         (opcOf cmd = 3 ∧ (cntOf cmd).toNat ≤ 3 ∧ i = .readDigest (cntOf cmd)) ∨
         (opcOf cmd = 4 ∧ cntOf cmd = 0 ∧ i = .readStatus)) := by
  unfold decode checkCount
  generalize opcOf cmd = o
  generalize cntOf cmd = c
  by_cases hr : rsvOf cmd = 0
  · simp only [hr, ne_eq, not_true_eq_false, if_false, true_and]
    obtain ⟨n, hn, rfl⟩ : ∃ n < 16, o = BitVec.ofNat 4 n := ⟨o.toNat, o.isLt, by simp⟩
    interval_cases n <;> simp <;> split <;> simp_all [@eq_comm Instr i]
  · rw [if_pos hr]
    simp only [hr, false_and, reduceCtorEq]

/-- Legal(CMD) is exactly what the decoder accepts, whatever DATA is (30_encoding.md R44, R47). -/
theorem legal_iff_decode_ok (cmd : Cmd) (data : Lane) : legal cmd = true ↔ ∃ i, decode cmd data = .ok i := by
  simp only [decode_ok, exists_and_left, exists_or, exists_eq, and_true]
  simp [legal, or_assoc]

theorem not_legal_iff_decode_error (cmd : Cmd) (data : Lane) : legal cmd = false ↔ ∃ e, decode cmd data = .error e := by
  have := legal_iff_decode_ok cmd data
  cases h : decode cmd data <;> cases hl : legal cmd <;> simp_all

end Sys2Proof
end

