-- ==== Sys2Proof/Laws/Flags.lean ====
section
/-! SUPPORT. Each field of STATUS stands where the layout puts it (10_state.md R20). -/

namespace Sys2Proof.Machine

variable (s : State)

theorem statusWord_phase : (statusWord s).extractLsb' 0 2 = s.phase.code := by
  apply BitVec.eq_of_getLsbD_eq
  intro z hz
  interval_cases z <;> simp only [BitVec.getLsbD_extractLsb', statusWord, BitVec.getLsbD_append] <;> rfl

theorem statusWord_dvalid : (statusWord s).getLsbD 2 = dvalid s := by
  simp only [statusWord, BitVec.getLsbD_append]
  exact BitVec.getLsbD_ofBool _ 0

theorem statusWord_err : (statusWord s).getLsbD 3 = s.err := by
  simp only [statusWord, BitVec.getLsbD_append]
  exact BitVec.getLsbD_ofBool _ 0

theorem statusWord_ecode : (statusWord s).extractLsb' 4 2 = s.ecode.code := by
  apply BitVec.eq_of_getLsbD_eq
  intro z hz
  interval_cases z <;> simp only [BitVec.getLsbD_extractLsb', statusWord, BitVec.getLsbD_append] <;> rfl

theorem statusWord_reserved : (statusWord s).extractLsb' 6 2 = 0 := by
  apply BitVec.eq_of_getLsbD_eq
  intro z hz
  interval_cases z <;> simp only [BitVec.getLsbD_extractLsb', statusWord, BitVec.getLsbD_append] <;> rfl

theorem statusWord_cursor : (statusWord s).extractLsb' 8 8 = BitVec.ofNat 8 s.cursor.val := by
  apply BitVec.eq_of_getLsbD_eq
  intro z hz
  interval_cases z <;> simp only [BitVec.getLsbD_extractLsb', statusWord, BitVec.getLsbD_append] <;> rfl

end Sys2Proof.Machine
end

