-- ==== Sys2Proof/Laws/State.lean ====
section
/-! SUPPORT. What each update of the state does to each field: one lemma per field per update. -/

namespace Sys2Proof.Machine

variable (s : State) (d : Lane) (c : RCode) (cmd : Cmd)

@[simp] theorem respond_lanes : (respond d s).lanes = s.lanes := rfl
@[simp] theorem respond_cursor : (respond d s).cursor = s.cursor := rfl
@[simp] theorem respond_phase : (respond d s).phase = s.phase := rfl
@[simp] theorem respond_err : (respond d s).err = s.err := rfl
@[simp] theorem respond_ecode : (respond d s).ecode = s.ecode := rfl
@[simp] theorem respond_response : (respond d s).response = some ⟨.ok, d⟩ := rfl
@[simp] theorem respond_host : (respond d s).host = s.host := rfl

@[simp] theorem reject_lanes : (reject c s).lanes = s.lanes := rfl
@[simp] theorem reject_cursor : (reject c s).cursor = s.cursor := rfl
@[simp] theorem reject_phase : (reject c s).phase = s.phase := rfl
@[simp] theorem reject_err : (reject c s).err = true := rfl
@[simp] theorem reject_ecode : (reject c s).ecode = c := rfl
@[simp] theorem reject_response : (reject c s).response = some ⟨c, 0⟩ := rfl
@[simp] theorem reject_host : (reject c s).host = s.host := rfl

@[simp] theorem clearEngine_lanes : (clearEngine s).lanes = zeroLanes := rfl
@[simp] theorem clearEngine_cursor : (clearEngine s).cursor = 0 := rfl
@[simp] theorem clearEngine_phase : (clearEngine s).phase = .absorbing := rfl
@[simp] theorem clearEngine_err : (clearEngine s).err = false := rfl
@[simp] theorem clearEngine_ecode : (clearEngine s).ecode = .ok := rfl
@[simp] theorem clearEngine_response : (clearEngine s).response = s.response := rfl
@[simp] theorem clearEngine_host : (clearEngine s).host = s.host := rfl

@[simp] theorem hardwareReset_lanes : (hardwareReset s).lanes = zeroLanes := rfl
@[simp] theorem hardwareReset_cursor : (hardwareReset s).cursor = 0 := rfl
@[simp] theorem hardwareReset_phase : (hardwareReset s).phase = .absorbing := rfl
@[simp] theorem hardwareReset_err : (hardwareReset s).err = false := rfl
@[simp] theorem hardwareReset_ecode : (hardwareReset s).ecode = .ok := rfl
@[simp] theorem hardwareReset_response : (hardwareReset s).response = none := rfl
@[simp] theorem hardwareReset_host : (hardwareReset s).host = s.host := rfl

@[simp] theorem offer_lanes : (offer cmd d s).lanes = s.lanes := rfl
@[simp] theorem offer_cursor : (offer cmd d s).cursor = s.cursor := rfl
@[simp] theorem offer_phase : (offer cmd d s).phase = s.phase := rfl
@[simp] theorem offer_err : (offer cmd d s).err = s.err := rfl
@[simp] theorem offer_ecode : (offer cmd d s).ecode = s.ecode := rfl
@[simp] theorem offer_response : (offer cmd d s).response = s.response := rfl
@[simp] theorem offer_host : (offer cmd d s).host = .command cmd d :: s.host := rfl

@[simp] theorem permute_lanes : (permute s).lanes = keccakF s.lanes := rfl
@[simp] theorem permute_cursor : (permute s).cursor = s.cursor := rfl
@[simp] theorem permute_phase : (permute s).phase = s.phase := rfl
@[simp] theorem permute_err : (permute s).err = s.err := rfl
@[simp] theorem permute_ecode : (permute s).ecode = s.ecode := rfl
@[simp] theorem permute_response : (permute s).response = s.response := rfl
@[simp] theorem permute_host : (permute s).host = s.host := rfl

@[simp] theorem pad_lanes :
    (pad s).lanes = xorByte (xorByte s.lanes (rateIndex s.cursor) Config.ds) 135 Config.padEnd := rfl
@[simp] theorem pad_cursor : (pad s).cursor = s.cursor := rfl
@[simp] theorem pad_phase : (pad s).phase = s.phase := rfl
@[simp] theorem pad_err : (pad s).err = s.err := rfl
@[simp] theorem pad_ecode : (pad s).ecode = s.ecode := rfl
@[simp] theorem pad_response : (pad s).response = s.response := rfl
@[simp] theorem pad_host : (pad s).host = s.host := rfl

@[simp] theorem finishMessage_lanes : (finishMessage s).lanes = keccakF (pad s).lanes := rfl
@[simp] theorem finishMessage_cursor : (finishMessage s).cursor = 0 := rfl
@[simp] theorem finishMessage_phase : (finishMessage s).phase = .finalized := rfl
@[simp] theorem finishMessage_err : (finishMessage s).err = s.err := rfl
@[simp] theorem finishMessage_ecode : (finishMessage s).ecode = s.ecode := rfl
@[simp] theorem finishMessage_response : (finishMessage s).response = s.response := rfl
@[simp] theorem finishMessage_host : (finishMessage s).host = s.host := rfl

end Sys2Proof.Machine
end

