-- ==== Sys2Proof/Laws/Step.lean ====
section
/-! SUPPORT. What one step can do, said once: the equations of `step` by what stands at the command port, and what each
command can answer (41_sponge_commands.md R68, 70_reset_and_hazards.md R105). -/

namespace Sys2Proof.Machine

/-- The state with the head of the host's events taken. -/
theorem step_idle (s : State) (h : s.host = []) : step s = .next s := by
  simp [step, takeEvent, h]

theorem step_command (s : State) (cmd : Cmd) (data : Lane) (rest : List HostEvent) (h : s.host = .command cmd data :: rest) :
    step s = transact cmd data { s with host := rest } := by
  simp [step, takeEvent, h]

theorem step_hardReset (s : State) (rest : List HostEvent) (h : s.host = .hardReset :: rest) :
    step s = .next (hardwareReset { s with host := rest }) := by
  simp [step, takeEvent, h]

theorem step_overlapped (s : State) (cmd : Cmd) (data : Lane) (rest : List HostEvent)
    (h : s.host = .overlapped cmd data :: rest) : step s = .refused .hostOverlap := by
  simp [step, takeEvent, h]

theorem transact_ok (cmd : Cmd) (data : Lane) (i : Instr) (s : State) (h : decode cmd data = .ok i) :
    transact cmd data s = exec i s := by
  simp [transact, h]

theorem transact_error (cmd : Cmd) (data : Lane) (e : DecodeError) (s : State) (h : decode cmd data = .error e) :
    transact cmd data s = .next (reject .illegalCmd s) := by
  simp [transact, h]

/-! ### When each command is accepted, and when it is rejected (60_exceptions.md R85) -/

theorem exec_reset (s : State) : exec .reset s = .next (respond 0 (clearEngine s)) := rfl

theorem exec_absorb (n : BitVec 4) (data : Lane) (s : State) (hn : n.toNat ≤ 8) (hp : s.phase = .absorbing) :
    exec (.absorb n data) s = .next (respond 0 (absorbBytes (dataBytes n.toNat data) s)) := by
  simp [exec, execAbsorb, hn, hp]

theorem exec_absorb_finalized (n : BitVec 4) (data : Lane) (s : State) (hn : n.toNat ≤ 8) (hp : s.phase = .finalized) :
    exec (.absorb n data) s = .next (reject .usageError s) := by
  simp [exec, execAbsorb, hn, hp]

theorem exec_absorb_illegal (n : BitVec 4) (data : Lane) (s : State) (hn : ¬ n.toNat ≤ 8) :
    exec (.absorb n data) s = .next (reject .illegalCmd s) := by
  simp [exec, execAbsorb, hn]

theorem exec_finalize (s : State) (hp : s.phase = .absorbing) : exec .finalize s = .next (respond 0 (finishMessage s)) := by
  simp [exec, execFinalize, hp]

theorem exec_finalize_finalized (s : State) (hp : s.phase = .finalized) :
    exec .finalize s = .next (reject .usageError s) := by
  simp [exec, execFinalize, hp]

theorem exec_readDigest (w : BitVec 4) (s : State) (hw : w.toNat ≤ 3) (hp : s.phase = .finalized) :
    exec (.readDigest w) s = .next (respond (digestWord s.lanes w) s) := by
  simp [exec, execReadDigest, hw, hp]

theorem exec_readDigest_absorbing (w : BitVec 4) (s : State) (hw : w.toNat ≤ 3) (hp : s.phase = .absorbing) :
    exec (.readDigest w) s = .next (reject .noDigest s) := by
  simp [exec, execReadDigest, hw, hp]

theorem exec_readDigest_illegal (w : BitVec 4) (s : State) (hw : ¬ w.toNat ≤ 3) :
    exec (.readDigest w) s = .next (reject .illegalCmd s) := by
  simp [exec, execReadDigest, hw]

theorem exec_readStatus (s : State) : exec .readStatus s = .next (respond ((statusWord s).setWidth 64) s) := rfl

/-- Everything a command can answer: it is rejected, or it is accepted with one of the five effects. -/
theorem exec_cases (i : Instr) (s t : State) (h : exec i s = .next t) :
    (∃ c, c ≠ .ok ∧ t = reject c s) ∨
    (i = .reset ∧ t = respond 0 (clearEngine s)) ∨
    (∃ n data, i = .absorb n data ∧ n.toNat ≤ 8 ∧ s.phase = .absorbing ∧
      t = respond 0 (absorbBytes (dataBytes n.toNat data) s)) ∨
    (i = .finalize ∧ s.phase = .absorbing ∧ t = respond 0 (finishMessage s)) ∨
    (∃ w, i = .readDigest w ∧ w.toNat ≤ 3 ∧ s.phase = .finalized ∧ t = respond (digestWord s.lanes w) s) ∨
    (i = .readStatus ∧ t = respond ((statusWord s).setWidth 64) s) := by
  cases i with
  | reset => cases h; exact .inr (.inl ⟨rfl, rfl⟩)
  | absorb n data =>
    simp only [exec, execAbsorb] at h
    split at h
    · split at h <;> cases h
      · exact .inr (.inr (.inl ⟨n, data, rfl, ‹_›, ‹_›, rfl⟩))
      · exact .inl ⟨_, by decide, rfl⟩
    · cases h; exact .inl ⟨_, by decide, rfl⟩
  | finalize =>
    simp only [exec, execFinalize] at h
    split at h <;> cases h
    · exact .inr (.inr (.inr (.inl ⟨rfl, ‹_›, rfl⟩)))
    · exact .inl ⟨_, by decide, rfl⟩
  | readDigest w =>
    simp only [exec, execReadDigest] at h
    split at h
    · split at h <;> cases h
      · exact .inl ⟨_, by decide, rfl⟩
      · exact .inr (.inr (.inr (.inr (.inl ⟨w, rfl, ‹_›, ‹_›, rfl⟩))))
    · cases h; exact .inl ⟨_, by decide, rfl⟩
  | readStatus => cases h; exact .inr (.inr (.inr (.inr (.inr ⟨rfl, rfl⟩))))

/-- Everything a step can do. -/
theorem step_cases (s t : State) (h : step s = .next t) :
    (s.host = [] ∧ t = s) ∨
    (∃ rest, s.host = .hardReset :: rest ∧ t = hardwareReset { s with host := rest }) ∨
    (∃ cmd data rest e, s.host = .command cmd data :: rest ∧ decode cmd data = .error e ∧
      t = reject .illegalCmd { s with host := rest }) ∨
    (∃ cmd data rest i, s.host = .command cmd data :: rest ∧ decode cmd data = .ok i ∧
      exec i { s with host := rest } = .next t) := by
  rcases hh : s.host with _ | ⟨e, rest⟩
  · rw [step_idle s hh] at h; cases h; exact .inl ⟨rfl, rfl⟩
  · cases e with
    | command cmd data =>
      rw [step_command s cmd data rest hh] at h
      cases hd : decode cmd data with
      | ok i => rw [transact_ok _ _ _ _ hd] at h; exact .inr (.inr (.inr ⟨cmd, data, rest, i, rfl, hd, h⟩))
      | error e =>
        rw [transact_error _ _ _ _ hd] at h; cases h
        exact .inr (.inr (.inl ⟨cmd, data, rest, e, rfl, hd, rfl⟩))
    | hardReset => rw [step_hardReset s rest hh] at h; cases h; exact .inr (.inl ⟨rest, rfl, rfl⟩)
    | overlapped cmd data => rw [step_overlapped s cmd data rest hh] at h; cases h

end Sys2Proof.Machine
end

