-- ==== Sys2Proof/Laws/Run.lean ====
section
/-! SUPPORT. Runs step by step: the first step of a run, and a run cut in two (70_reset_and_hazards.md R102). -/

namespace Sys2Proof.Machine

/-- The run of any machine takes a step and goes on. -/
theorem run_next (M : Host.Core) (k : Nat) (s s' : M.State) (h : M.step s = .next s') : M.run (k + 1) s = M.run k s' := by
  rw [Host.Core.run, h]

/-- The run of this machine takes a step and goes on. -/
theorem coreRun_next (k : Nat) (s s' : State) (h : step s = .next s') :
    Host.Core.run core (k + 1) s = Host.Core.run core k s' :=
  run_next core k s s' h

/-- The run of any machine stops where the step refuses. -/
theorem run_refused (M : Host.Core) (k : Nat) (s : M.State) (r : M.Refusal) (h : M.step s = .refused r) :
    M.run (k + 1) s = .refused r := by
  rw [Host.Core.run, h]

/-- The run of this machine stops where the step refuses. -/
theorem coreRun_refused (k : Nat) (s : State) (r : Refusal) (h : step s = .refused r) :
    Host.Core.run core (k + 1) s = .refused r :=
  run_refused core k s r h

theorem runResponses_zero (s : State) : runResponses 0 s = some ([], s) := rfl

theorem runResponses_next (k : Nat) (s s' : State) (h : step s = .next s') :
    runResponses (k + 1) s = (runResponses k s').map fun r => (answer s s' ++ r.1, r.2) := by
  simp [runResponses, h]

/-- A run of k + l steps is one of k steps and then one of l steps. -/
theorem runResponses_add (k l : Nat) (s t : State) (rs : List Response) (h : runResponses k s = some (rs, t)) :
    runResponses (k + l) s = (runResponses l t).map fun r => (rs ++ r.1, r.2) := by
  induction k generalizing s rs with
  | zero => cases h; simp
  | succ k ih =>
    rw [Nat.add_right_comm]
    cases hs : step s with
    | next s' =>
      rw [runResponses_next _ _ _ hs] at h ⊢
      obtain ⟨⟨rs', t'⟩, hr, he⟩ := Option.map_eq_some_iff.mp h
      cases he
      rw [ih s' rs' hr, Option.map_map]
      congr 1
      funext r
      simp
    | fault r => simp [runResponses, hs] at h
    | refused r => simp [runResponses, hs] at h

/-- One accepted or rejected command at the head of the host's events: one step, one answer. -/
theorem runResponses_command (k : Nat) (i : Instr) (s t : State) (r : Response) (rest : List HostEvent)
    (hd : decode (encode i).1 (encode i).2 = .ok i) (he : exec i { s with host := rest } = .next t)
    (hr : t.response = some r) :
    runResponses (k + 1) { s with host := commandEvent i :: rest } =
      (runResponses k t).map fun x => (r :: x.1, x.2) := by
  rw [runResponses_next k _ t (by rw [step_command _ _ _ _ rfl, transact_ok _ _ _ _ hd]; exact he)]
  simp [answer, commandEvent, hr]

end Sys2Proof.Machine
end

