-- ==== Sys2Proof/Laws/Instances.lean ====
section
/-! SUPPORT. What one step of a platform does to each of its engines (10_state.md R27, 70_reset_and_hazards.md R104). -/

namespace Sys2Proof.Machine

theorem engineStep_stopped (e : Engine) (r : Refusal) (h : e.stop = some r) : engineStep e = e := by
  simp [engineStep, h]

theorem engineStep_next (e : Engine) (s : State) (h : e.stop = none) (hs : step e.state = .next s) :
    engineStep e = ⟨s, e.responses ++ answer e.state s, none⟩ := by
  simp [engineStep, h, hs]

theorem engineStep_refused (e : Engine) (r : Refusal) (h : e.stop = none) (hs : step e.state = .refused r) :
    engineStep e = ⟨e.state, e.responses, some r⟩ := by
  simp [engineStep, h, hs]

theorem stepAt_self {n : Nat} (k : Fin n) (p : Platform n) : (stepAt k p)[k] = engineStep p[k] := by
  simp [stepAt]

theorem stepAt_other {n : Nat} (j k : Fin n) (p : Platform n) (h : j ≠ k) : (stepAt j p)[k] = p[k] := by
  simp [stepAt, Fin.val_ne_of_ne h]

@[simp] theorem runSchedule_nil {n : Nat} (p : Platform n) : runSchedule [] p = p := rfl

@[simp] theorem runSchedule_cons {n : Nat} (j : Fin n) (order : List (Fin n)) (p : Platform n) :
    runSchedule (j :: order) p = runSchedule order (stepAt j p) := rfl

end Sys2Proof.Machine
end

