-- ==== Sys2Proof/Laws/PerInstr.lean ====
section
/-! SUPPORT. The family `Encoding`: one lemma per constructor about a command as syntax (30_encoding.md R41, R44). -/

namespace Sys2Proof.Laws.Encoding

/-- The word of a command has RSV = 0, and it is legal exactly when the command is well-formed. -/
def Statement (i : Instr) : Prop := rsvOf (encode i).1 = 0 ∧ legal (encode i).1 = i.wellFormed

theorem reset : Statement .reset := by unfold Statement; decide

theorem absorb (n : BitVec 4) (data : Lane) : Statement (.absorb n data) := by
  revert n; simp only [Statement, encode, Instr.wellFormed]; decide

theorem finalize : Statement .finalize := by unfold Statement; decide

theorem readDigest (w : BitVec 4) : Statement (.readDigest w) := by
  revert w; unfold Statement; decide

theorem readStatus : Statement .readStatus := by unfold Statement; decide

end Sys2Proof.Laws.Encoding
end

