-- ==== Sys2Proof/Laws/Permutation.lean ====
section
/-! SUPPORT. What each step mapping does to one lane of the grid (40_permutation.md R54 to R61). -/

namespace Sys2Proof.Machine

@[simp] theorem rotl64_zero (v : Lane) : rotl64 v 0 = v := rfl

theorem laneAt_theta (A : Lanes) (x y : Fin 5) : laneAt (theta A) x y = laneAt A x y ^^^ thetaEffect A x :=
  laneAt_ofGrid _ x y

theorem laneAt_rho (A : Lanes) (x y : Fin 5) : laneAt (rho A) x y = rotl64 (laneAt A x y) (rhoOffset x y) :=
  laneAt_ofGrid _ x y

theorem laneAt_piStep (A : Lanes) (x y : Fin 5) : laneAt (piStep A) x y = laneAt A (x + 3 * y) x :=
  laneAt_ofGrid _ x y

theorem laneAt_chi (A : Lanes) (x y : Fin 5) :
    laneAt (chi A) x y = laneAt A x y ^^^ (~~~(laneAt A (x + 1) y) &&& laneAt A (x + 2) y) :=
  laneAt_ofGrid _ x y

theorem getElem_iota (A : Lanes) (i : Fin 24) (j : Nat) (hj : j < 25) :
    (iota A i)[j] = if j = 0 then A[0] ^^^ roundConstant i else A[j] := by
  simp only [iota, Vector.getElem_set, eq_comm]

/-- Every rotation offset is in 0..63, so `rotl64` never shifts by 64 or more (40_permutation.md R56). -/
theorem rhoOffset_lt (x y : Fin 5) : rhoOffset x y < 64 := by
  revert x y; decide

end Sys2Proof.Machine
end

