-- ==== Sys2Proof/Laws/Sponge.lean ====
section
/-! SUPPORT. What the sponge primitives can do (41_sponge_commands.md R69 to R73, R76). -/

namespace Sys2Proof.Machine

/-- AbsorbByte while the block does not fill. -/
theorem absorbByte_inside (b : Byte) (s : State) (h : s.cursor.val + 1 < 136) :
    absorbByte b s = { s with lanes := xorByte s.lanes (rateIndex s.cursor) b, cursor := ⟨s.cursor.val + 1, h⟩ } := by
  simp only [absorbByte, h, dif_pos]

/-- AbsorbByte on the byte that fills the block. -/
theorem absorbByte_full (b : Byte) (s : State) (h : s.cursor.val = 135) :
    absorbByte b s = { s with lanes := keccakF (xorByte s.lanes (rateIndex s.cursor) b), cursor := 0 } := by
  simp only [absorbByte, h, show ¬(135 + 1 < 136) by omega, dif_neg, not_false_eq_true, permute]

/-- AbsorbByte moves CURSOR by one, modulo the rate. -/
theorem absorbByte_cursor (b : Byte) (s : State) : (absorbByte b s).cursor.val = (s.cursor.val + 1) % 136 := by
  by_cases h : s.cursor.val + 1 < 136
  · rw [absorbByte_inside b s h, Nat.mod_eq_of_lt h]
  · have : s.cursor.val = 135 := by omega
    rw [absorbByte_full b s this, this]
    rfl

/-- AbsorbByte touches the lanes and CURSOR alone. -/
theorem absorbByte_frame (b : Byte) (s : State) :
    absorbByte b s = { s with lanes := (absorbByte b s).lanes, cursor := (absorbByte b s).cursor } := by
  by_cases h : s.cursor.val + 1 < 136
  · rw [absorbByte_inside b s h]
  · rw [absorbByte_full b s (by omega)]

@[simp] theorem absorbBytes_nil (s : State) : absorbBytes [] s = s := rfl

@[simp] theorem absorbBytes_cons (b : Byte) (bs : List Byte) (s : State) :
    absorbBytes (b :: bs) s = absorbBytes bs (absorbByte b s) := rfl

/-- Absorbing depends on the concatenated bytes alone, not on how they are split (R76). -/
theorem absorbBytes_append (xs ys : List Byte) (s : State) :
    absorbBytes (xs ++ ys) s = absorbBytes ys (absorbBytes xs s) :=
  List.foldl_append

/-- Absorbing touches the lanes and CURSOR alone. -/
theorem absorbBytes_frame (bs : List Byte) (s : State) :
    absorbBytes bs s = { s with lanes := (absorbBytes bs s).lanes, cursor := (absorbBytes bs s).cursor } := by
  induction bs generalizing s with
  | nil => rfl
  | cons b bs ih => rw [absorbBytes_cons, ih, absorbByte_frame b s]

@[simp] theorem absorbBytes_phase (bs : List Byte) (s : State) : (absorbBytes bs s).phase = s.phase := by
  rw [absorbBytes_frame]
@[simp] theorem absorbBytes_err (bs : List Byte) (s : State) : (absorbBytes bs s).err = s.err := by
  rw [absorbBytes_frame]
@[simp] theorem absorbBytes_ecode (bs : List Byte) (s : State) : (absorbBytes bs s).ecode = s.ecode := by
  rw [absorbBytes_frame]
@[simp] theorem absorbBytes_response (bs : List Byte) (s : State) : (absorbBytes bs s).response = s.response := by
  rw [absorbBytes_frame]
@[simp] theorem absorbBytes_host (bs : List Byte) (s : State) : (absorbBytes bs s).host = s.host := by
  rw [absorbBytes_frame]

/-- Absorbing does not look at the ports. -/
theorem absorbBytes_ports (bs : List Byte) (s : State) (r : Option Response) (h : List HostEvent) :
    absorbBytes bs { s with response := r, host := h } = { absorbBytes bs s with response := r, host := h } := by
  induction bs generalizing s with
  | nil => rfl
  | cons b bs ih =>
    rw [absorbBytes_cons, absorbBytes_cons, ← ih]
    congr 1
    by_cases hc : s.cursor.val + 1 < 136
    · rw [absorbByte_inside b { s with response := r, host := h } hc, absorbByte_inside b s hc]
    · rw [absorbByte_full b { s with response := r, host := h } (by simp only; omega), absorbByte_full b s (by omega)]

/-- CURSOR counts the absorbed bytes modulo the rate (R71). -/
theorem absorbBytes_cursor (bs : List Byte) (s : State) :
    (absorbBytes bs s).cursor.val = (s.cursor.val + bs.length) % 136 := by
  induction bs generalizing s with
  | nil => simpa using (Nat.mod_eq_of_lt s.cursor.isLt).symm
  | cons b bs ih => rw [absorbBytes_cons, ih, absorbByte_cursor, List.length_cons]; omega

/-- Bytes that stay inside the block are XORed in at CURSOR and up, and nothing else changes (R69, R71). -/
theorem absorbBytes_inside (bs : List Byte) (s : State) (h : s.cursor.val + bs.length < 136) (k : Fin 200) :
    getByte (absorbBytes bs s).lanes k
      = if s.cursor.val ≤ k.val ∧ k.val < s.cursor.val + bs.length
        then getByte s.lanes k ^^^ bs.getD (k.val - s.cursor.val) 0 else getByte s.lanes k := by
  induction bs generalizing s with
  | nil => rw [if_neg (by simp)]; rfl
  | cons b bs ih =>
    rw [List.length_cons] at h
    rw [absorbBytes_cons, absorbByte_inside b s (by omega), ih _ (by simp only; omega)]
    simp only [getByte_xorByte, List.length_cons, rateIndex, Fin.ext_iff]
    by_cases hk : k.val = s.cursor.val
    · rw [if_neg (by omega), if_pos hk, if_pos (by omega), hk, Nat.sub_self, List.getD_cons_zero]
    · rw [if_neg hk]
      by_cases hr : s.cursor.val + 1 ≤ k.val ∧ k.val < s.cursor.val + 1 + bs.length
      · rw [if_pos hr, if_pos (by omega), show k.val - s.cursor.val = (k.val - (s.cursor.val + 1)) + 1 by omega,
          List.getD_cons_succ]
      · rw [if_neg hr, if_neg (by omega)]

/-- Bytes that reach the block boundary: the block is completed, permuted, and the rest goes in at byte 0 (R69). -/
theorem absorbBytes_full (bs : List Byte) (s : State) (h : s.cursor.val + bs.length = 136) (hne : bs ≠ []) :
    ∃ L : Lanes, absorbBytes bs s = { s with lanes := keccakF L, cursor := 0 } ∧
      ∀ k, getByte L k = if s.cursor.val ≤ k.val ∧ k.val < 136
        then getByte s.lanes k ^^^ bs.getD (k.val - s.cursor.val) 0 else getByte s.lanes k := by
  obtain ⟨xs, b, rfl⟩ : ∃ xs b, bs = xs ++ [b] := ⟨_, _, (List.dropLast_append_getLast hne).symm⟩
  rw [List.length_append, List.length_singleton] at h
  have hc : (absorbBytes xs s).cursor.val = 135 := by rw [absorbBytes_cursor]; omega
  refine ⟨xorByte (absorbBytes xs s).lanes (rateIndex (absorbBytes xs s).cursor) b, ?_, fun k => ?_⟩
  · rw [absorbBytes_append, absorbBytes_cons, absorbBytes_nil, absorbByte_full b _ hc, absorbBytes_frame xs s]
  · rw [getByte_xorByte]
    have hl := absorbBytes_inside xs s (by omega)
    by_cases hk : k = rateIndex (absorbBytes xs s).cursor
    · have hkv : k.val = 135 := by rw [hk]; exact hc
      rw [if_pos hk, if_pos (by omega), hl, if_neg (by omega), List.getD_append_right _ _ _ _ (by omega),
        show k.val - s.cursor.val - xs.length = 0 by omega]
      rfl
    · have hkv : k.val ≠ 135 := fun e => hk (Fin.ext (by rw [e]; exact hc.symm))
      rw [if_neg hk, hl]
      by_cases hr : s.cursor.val ≤ k.val ∧ k.val < s.cursor.val + xs.length
      · rw [if_pos hr, if_pos (by omega), List.getD_append _ _ _ _ (by omega)]
      · rw [if_neg hr, if_neg (by omega)]

@[simp] theorem dataBytes_length (n : Nat) (data : Lane) : (dataBytes n data).length = n := by
  simp [dataBytes]

/-- Byte k taken from DATA (20_memory.md R31). -/
theorem dataBytes_getD (n : Nat) (data : Lane) (k : Nat) (hk : k < n) :
    (dataBytes n data).getD k 0 = byteOf data k := by
  simp [dataBytes, List.getD, hk]

/-- Only the first n bytes of DATA matter (30_encoding.md R50). -/
theorem dataBytes_congr (n : Nat) (d d' : Lane) (h : ∀ k < n, byteOf d k = byteOf d' k) :
    dataBytes n d = dataBytes n d' :=
  List.map_congr_left fun k hk => h k (List.mem_range.mp hk)

/-- The padded block byte by byte: both pads hit byte 135 when CURSOR is there (R72). -/
theorem getByte_pad (s : State) (k : Fin 200) :
    getByte (pad s).lanes k
      = (if k.val = s.cursor.val then getByte s.lanes k ^^^ Config.ds else getByte s.lanes k)
        ^^^ (if k.val = 135 then Config.padEnd else 0) := by
  simp only [pad_lanes, getByte_xorByte, rateIndex, Fin.ext_iff]
  by_cases h135 : k.val = 135 <;> simp [h135]

end Sys2Proof.Machine
end

