-- ==== Sys2Proof/Tests/Slice0.lean ====
section
/-! SUPPORT. Tests. Expected values come from spec/95_test_vectors.md (the vector's name stands in each comment) and from
the encodings of 30_encoding.md; a `witness_` theorem shows a state and operands that meet the hypotheses of the
obligation it names, at the boundaries of its clauses. -/

namespace Sys2Proof.Tests

open Sys2Proof Sys2Proof.Machine Sys2Proof.Safety

/-! ### States built for the tests -/

/-- The lanes `L[i] = f i`. -/
def lanesOf (f : Nat → Lane) : Lanes := Vector.ofFn fun i : Fin 25 => f i.val

/-- Absorbing, with CURSOR at `c` and an otherwise reset engine. -/
def absorbingAt (c : Fin 136) : State := { State.reset with cursor := c }

/-- Finalized, with lane i equal to i, so that every lane is told apart. -/
def finalized : State := { State.reset with phase := .finalized, lanes := lanesOf fun i => BitVec.ofNat 64 i }

/-- Finalized with ERR = 1 and ECODE = 1, as after a rejected ABSORB. -/
def finalizedWithError : State := reject .usageError finalized

/-- A state with one transaction at the port. -/
def offered (cmd : Cmd) (data : Lane) (s : State) : State := { s with host := [.command cmd data] }

/-- A state after an outcome, or the reset state where it stops. -/
def after : Host.Outcome State Fault Refusal → State
  | .next s => s
  | .fault _ => State.reset
  | .refused _ => State.reset

/-! ### WellFormed refuses each ill-formed term -/

theorem test_wellFormed_absorb_nine : (Instr.absorb 9 0).wellFormed = false := by decide
theorem test_wellFormed_absorb_eight : (Instr.absorb 8 0).wellFormed = true := by decide
theorem test_wellFormed_readDigest_four : (Instr.readDigest 4).wellFormed = false := by decide
theorem test_wellFormed_readDigest_three : (Instr.readDigest 3).wellFormed = true := by decide

/-! ### Decoding words written out as RSV, CNT, OPC (30_encoding.md R41, R43) -/

theorem test_decode_reset : decode 0b00000000_0000_0000 0 = .ok .reset := by decide
theorem test_decode_absorb : decode 0b00000000_0011_0001 0x636261 = .ok (.absorb 3 0x636261) := by decide
theorem test_decode_finalize : decode 0b00000000_0000_0010 0 = .ok .finalize := by decide
theorem test_decode_readDigest : decode 0b00000000_0011_0011 0 = .ok (.readDigest 3) := by decide
theorem test_decode_readStatus : decode 0b00000000_0000_0100 0 = .ok .readStatus := by decide
/-- V-E10: reserved OPC. -/
theorem test_decode_reserved_opcode : decode 0x0005 0 = .error .reservedOpcode := by decide
/-- V-E11: RSV not 0. -/
theorem test_decode_reserved_bits : decode 0x0102 0 = .error .reservedBits := by decide
/-- V-E12, V-E14, V-E9, V-E13: CNT out of range. -/
theorem test_decode_count_range :
    [decode 0x0010 0, decode 0x0014 0, decode 0x0091 0, decode 0x0043 0].all
      (fun r => decide (r = .error .countRange)) = true := by decide
/-- The table numbers DATA above CMD: bits 79 to 16. -/
theorem test_decodeTableWord_data : decodeTableWord 80 0x6362610031 = some (.absorb 3 0x636261) := by decide
theorem test_decodeTableWord_cmd : decodeTableWord 16 0x0081 = some (.absorb 8 0) := by decide
theorem test_decodeTableWord_illegal : decodeTableWord 16 0x0091 = none := by decide

/-! ### The step mappings -/

/-- V-ROT1, V-ROT3, V-ROT5. -/
theorem test_rotl64 :
    rotl64 0x8000000000000001 1 = 0x0000000000000003 ∧ rotl64 0x8000000000000001 63 = 0xC000000000000000 ∧
    rotl64 0x0123456789ABCDEF 36 = 0x9ABCDEF012345678 := by decide

/-- V-T1. -/
theorem test_theta :
    theta (lanesOf fun i => if i = 0 then 1 else 0) =
      lanesOf fun i => if i % 5 = 1 ∨ i = 0 then 1 else if i % 5 = 4 then 2 else 0 := by decide +kernel

/-- V-R1, row y = 1. -/
theorem test_rho :
    (rho (lanesOf fun _ => 1)).toList.drop 5 |>.take 5 |> (· =
      [0x0000001000000000, 0x0000100000000000, 0x0000000000000040, 0x0080000000000000, 0x0000000000100000]) := by
  decide +kernel

/-- V-P2: lane (1,0) moves to (0,2). -/
theorem test_pi :
    piStep (lanesOf fun i => if i = 1 then 0xAAAA else 0) = lanesOf fun i => if i = 10 then 0xAAAA else 0 := by
  decide +kernel

/-- V-C1. -/
theorem test_chi :
    (chi (lanesOf fun i => if i = 0 then 0x1111 else if i = 1 then 0xFFFFFFFFFFFFFFFF else if i = 2 then 0xFFFFFFFF else 0)
      ).toList.take 5 =
      [0x1111, 0xFFFFFFFFFFFFFFFF, 0xFFFFFFFF, 0x1111, 0xFFFFFFFFFFFFEEEE] := by decide +kernel

/-- V-I4. -/
theorem test_iota :
    iota (lanesOf fun _ => 0xFFFFFFFFFFFFFFFF) 1 =
      lanesOf fun i => if i = 0 then 0xFFFFFFFFFFFF7F7D else 0xFFFFFFFFFFFFFFFF := by decide +kernel

/-- V-RD1: lanes 0 and 22 after round 1 of the state V-RD0. -/
theorem test_round :
    (keccakRound (keccakRound zeroLanes 0) 1)[0] = 0x8083 ∧
    (keccakRound (keccakRound zeroLanes 0) 1)[22] = 0x0000010000000004 := by decide +kernel

/-! ### One command on one state -/

/-- V-E2: RESET of a finalized engine with an error gives STATUS 0. -/
theorem test_reset_clears : statusWord (after (exec .reset finalizedWithError)) = 0x0000 := by decide +kernel

/-- 41_sponge_commands.md R71: from reset, "abc" gives L[0] = 0x636261 and CURSOR = 3, the ignored bytes of DATA aside
(V-S18). -/
theorem test_absorb_abc :
    (after (exec (.absorb 3 0xFFFFFFFFFF636261) State.reset)).lanes[0] = 0x636261 ∧
    (after (exec (.absorb 3 0xFFFFFFFFFF636261) State.reset)).cursor = 3 := by decide +kernel

/-- V-E15: ABSORB 4 at CURSOR = 134 straddles the block. -/
theorem test_absorb_straddles : (after (exec (.absorb 4 0x89888786) (absorbingAt 134))).cursor = 2 := by decide +kernel

/-- V-S1: FINALIZE of the empty message, read back as the digest lanes. -/
theorem test_finalize_empty :
    (after (exec .finalize State.reset)).lanes.toList.take 4 =
      [0x3C23F7860146D2C5, 0xC003C7DCB27D7E92, 0x3B2782CA53B600E5, 0x70A4855D04D8FA7B] := by decide +kernel

/-- V-S2: FINALIZE after "abc". -/
theorem test_finalize_abc :
    (after (exec .finalize (absorbBytes [0x61, 0x62, 0x63] State.reset))).lanes.toList.take 4 =
      [0x4FA945EA7A65034E, 0x67D6C826A87BD4C7, 0x36A0643AE3E6D1C0, 0x456C2DA18FF544EC] := by decide +kernel

/-- V-S13: at CURSOR = 135 both pads hit byte 135. -/
theorem test_pad_collision : (pad (absorbingAt 135)).lanes[16] = 0x8100000000000000 := by decide +kernel

/-- READ_DIGEST 2 returns lane 2 (41_sponge_commands.md R74). -/
theorem test_readDigest_two : (after (exec (.readDigest 2) finalized)).response = some ⟨.ok, 2⟩ := by decide +kernel

/-- V-E7: READ_DIGEST while Absorbing. -/
theorem test_readDigest_absorbing :
    (after (exec (.readDigest 0) State.reset)).response = some ⟨.noDigest, 0⟩ ∧
    statusWord (after (exec (.readDigest 0) State.reset)) = 0x0038 := by decide +kernel

/-- 95_test_vectors.md P4: READ_STATUS at CURSOR = 134. -/
theorem test_readStatus_cursor : (after (exec .readStatus (absorbingAt 134))).response = some ⟨.ok, 0x8600⟩ := by decide

/-- V-E5: READ_STATUS after a rejected ABSORB while Finalized. -/
theorem test_readStatus_error : (after (exec .readStatus finalizedWithError)).response = some ⟨.ok, 0x001E⟩ := by decide +kernel

/-- V-E9: ABSORB 9 while Finalized is ILLEGAL_CMD, and STATUS is then 0x002E. -/
theorem test_step_illegal_wins : statusWord (after (step (offered 0x0091 0xFF finalized))) = 0x002E := by decide +kernel

/-- A table word placed by withFetchWord is what the next step runs. -/
theorem test_withFetchWord :
    step (State.reset.withFetchWord 16 0x0004) = exec .readStatus State.reset := rfl

/-! ### The table generators and the assembler -/

/-- 30_encoding.md R51: a comment, an omitted operand, and a refused count. -/
theorem test_assemble :
    assembleLine ['A', 'B', 'S', 'O', 'R', 'B', ' ', '3', ',', ' ', '0', 'x', '6', '3', '6', '2', '6', '1', ' ', ';', 'c']
      = .ok [.command 0x0031 0x636261] ∧
    assembleLine ['A', 'B', 'S', 'O', 'R', 'B', ' ', '0'] = .ok [.command 0x0001 0] ∧
    assembleLine ['A', 'B', 'S', 'O', 'R', 'B', ' ', '9'] = .error .badOperand ∧
    assembleLine ['N', 'O', 'P'] = .error .unknownMnemonic ∧
    assembleLine ['.', 'w', 'o', 'r', 'd', '1', '6', ' ', '0', 'x', '0', '1', '0', '2'] = .ok [.command 0x0102 0] := by
  decide +kernel

/-- 30_encoding.md R52: UPDATE of nine bytes is an ABSORB 8 and an ABSORB 1. -/
theorem test_update_nine :
    updateProgram [0, 1, 2, 3, 4, 5, 6, 7, 8] =
      [.command 0x0081 0x0706050403020100, .command 0x0011 0x0000000000000008] := by decide +kernel

/-- 30_encoding.md R52: the empty UPDATE keeps its one ABSORB 0. -/
theorem test_update_empty : updateProgram [] = [.command 0x0001 0] := by decide +kernel

/-! ### Witnesses for the hypotheses of the obligations -/

theorem witness_DecodeOfEncodeIsTheCommand :
    (Instr.absorb 8 5).wellFormed = true ∧ (Instr.absorb 0 5).wellFormed = true ∧ (Instr.readDigest 3).wellFormed = true := by
  decide

theorem witness_DecodeFollowsLegalAndOpcode :
    legal 0x0091 = false ∧ legal 0x0000 = true ∧ legal 0x0081 = true ∧ legal 0x0002 = true ∧ legal 0x0033 = true ∧
    legal 0x0004 = true := by decide

theorem witness_SixteenWordsAreLegal :
    decode (BitVec.ofNat 16 (16 * 8 + 1)) 0 = .ok (.absorb 8 0) ∧
    decode (BitVec.ofNat 16 (16 * 3 + 3)) 0 = .ok (.readDigest 3) := by decide

theorem witness_IllegalWordsAreNamedByClass :
    rsvOf 0x0100 ≠ 0 ∧ (rsvOf 0x0005 = 0 ∧ 5 ≤ (opcOf 0x0005).toNat) ∧
    (rsvOf 0x0091 = 0 ∧ opcOf 0x0091 = 1 ∧ 9 ≤ (cntOf 0x0091).toNat) ∧
    (rsvOf 0x0043 = 0 ∧ opcOf 0x0043 = 3 ∧ 4 ≤ (cntOf 0x0043).toNat) ∧
    (rsvOf 0x0014 = 0 ∧ opcOf 0x0014 = 4 ∧ cntOf 0x0014 ≠ 0) ∧ (opcOf 0x0010 = 0 ∧ cntOf 0x0010 ≠ 0) ∧
    (opcOf 0x0012 = 2 ∧ cntOf 0x0012 ≠ 0) := by decide

theorem witness_StepRunsTheDecodedCommand :
    (offered 0x0031 7 State.reset).host = .command 0x0031 7 :: [] ∧ decode 0x0031 7 = .ok (.absorb 3 7) := by decide

theorem witness_StepRejectsIllegalWords :
    (offered 0x0102 7 finalized).host = .command 0x0102 7 :: [] ∧ rsvOf 0x0102 ≠ 0x00 ∧
    (offered 0x0091 7 finalized).host = .command 0x0091 7 :: [] ∧ opcOf 0x0091 = 0x1 ∧ ¬ (cntOf 0x0091).toNat ≤ 8 := by
  decide

theorem witness_IdleEngineWaits : finalized.host = [] := rfl

theorem witness_OverlappingHostIsRefused :
    ({ State.reset with host := [.overlapped 0x0002 0] } : State).host = .overlapped 0x0002 0 :: [] := rfl

theorem witness_EveryResetSourceGivesTheResetState :
    ({ finalized with host := [.hardReset, .command 0x0004 0] } : State).host = .hardReset :: [.command 0x0004 0] := rfl

theorem witness_SerialHostIsAlwaysAnswered :
    HostSerialises (offered 0x0005 0 finalized) ∧ (offered 0x0005 0 finalized).host = .command 0x0005 0 :: [] := by
  simp [offered, HostSerialises]

theorem witness_ResetIsTotalAndIdempotent : (3 : BitVec 4).toNat ≤ 3 := by decide

theorem witness_AbsorbByteFollowsTheCursor :
    (absorbingAt 135).cursor.val + 1 = 136 ∧ (absorbingAt 134).cursor.val + 1 < 136 := by decide

theorem witness_AbsorbPerformsItsAbsorbBytes :
    (8 : BitVec 4).toNat ≤ 8 ∧ (0 : BitVec 4).toNat ≤ 8 ∧ State.reset.phase = .absorbing ∧ finalized.phase = .finalized := by
  decide

theorem witness_AbsorbInsideTheBlock :
    (8 : BitVec 4).toNat ≤ 8 ∧ (absorbingAt 127).phase = .absorbing ∧ (absorbingAt 127).cursor.val + (8 : BitVec 4).toNat < 136 ∧
    (absorbingAt 135).cursor.val + (0 : BitVec 4).toNat < 136 := by decide

theorem witness_AbsorbAcrossTheBlockBoundary :
    (8 : BitVec 4).toNat ≤ 8 ∧ (absorbingAt 128).phase = .absorbing ∧ 136 ≤ (absorbingAt 128).cursor.val + (8 : BitVec 4).toNat ∧
    136 ≤ (absorbingAt 135).cursor.val + (1 : BitVec 4).toNat ∧ 136 ≤ (absorbingAt 135).cursor.val + (8 : BitVec 4).toNat := by
  decide

theorem witness_FinalizePadsAndPermutesOnce :
    (absorbingAt 135).phase = .absorbing ∧ (absorbingAt 0).phase = .absorbing ∧ finalized.phase = .finalized := by decide

theorem witness_ReadDigestReturnsTheLane : finalized.phase = .finalized ∧ State.reset.phase = .absorbing := by decide

theorem witness_IllFormedCountsAreRejected :
    9 ≤ (9 : BitVec 4).toNat ∧ 9 ≤ (15 : BitVec 4).toNat ∧ 4 ≤ (4 : BitVec 4).toNat := by decide

theorem witness_RejectionIsPrecise :
    (offered 0x0002 0 finalized).host = .command 0x0002 0 :: [] ∧
    step (offered 0x0002 0 finalized) = .next (reject .usageError finalized) ∧
    (reject .usageError finalized).response = some ⟨.usageError, 0⟩ := ⟨rfl, rfl, rfl⟩

theorem witness_RejectionCausesByCommand :
    step (offered 0x0091 0 finalized) = .next (reject .illegalCmd finalized) ∧
    step (offered 0x0001 0 finalized) = .next (reject .usageError finalized) ∧
    step (offered 0x0033 0 State.reset) = .next (reject .noDigest State.reset) := ⟨rfl, rfl, rfl⟩

theorem witness_AcceptedCommandsKeepTheErrorRecord :
    exec (.readDigest 1) finalizedWithError = .next (respond 1 finalizedWithError) ∧ Instr.readDigest 1 ≠ .reset ∧
    exec .finalize finalized = .next (reject .usageError finalized) := ⟨rfl, by decide, rfl⟩

theorem witness_OnlyResetClearsTheError :
    step (offered 0x0000 9 finalizedWithError) = .next (respond 0 (clearEngine finalizedWithError)) ∧
    finalizedWithError.err = true ∧ (respond 0 (clearEngine finalizedWithError)).err = false := ⟨rfl, rfl, rfl⟩

theorem witness_DigestIsImmutableUntilReset :
    step (offered 0x0013 0 finalized) = .next (respond 1 finalized) ∧ finalized.phase = .finalized ∧
    step (offered 0x0000 0 finalized) = .next (respond 0 (clearEngine finalized)) := ⟨rfl, rfl, rfl⟩

theorem witness_OnlyFinalizeMakesADigest :
    step (offered 0x0002 9 (absorbingAt 5)) = .next (respond 0 (finishMessage (absorbingAt 5))) ∧
    (absorbingAt 5).phase = .absorbing ∧ (respond 0 (finishMessage (absorbingAt 5))).phase = .finalized := ⟨rfl, rfl, rfl⟩

theorem witness_CorrectUseIsErrZeroAtTheEnd :
    (∀ e ∈ (offered 0x0031 7 State.reset).host, ∃ cmd data, e = .command cmd data ∧ cmd ≠ 0x0000) ∧
    (offered 0x0033 7 State.reset).err = false ∧
    runResponses 1 (offered 0x0033 7 State.reset) = some ([⟨.noDigest, 0⟩], reject .noDigest State.reset) := by
  refine ⟨?_, rfl, rfl⟩
  intro e he
  exact ⟨0x0031, 7, List.mem_singleton.mp he, by decide⟩

theorem witness_IgnoredDataNeverMatters :
    opcOf 0x0031 = 0x1 ∧ legal 0x0031 = true ∧
    (∀ k, k < (cntOf 0x0031).toNat → byteOf 0xFFFFFFFFFF636261 k = byteOf 0x0000000000636261 k) ∧ opcOf 0x0002 ≠ 0x1 := by
  decide

theorem witness_EveryStepKeepsTheInvariants :
    StateInv finalizedWithError ∧ step (offered 0x0000 0 finalizedWithError) = .next (respond 0 (clearEngine finalizedWithError)) :=
  ⟨by decide, rfl⟩

theorem witness_EveryStepKeepsThePortInvariant :
    PortInv finalizedWithError ∧ step (offered 0x0001 0 finalizedWithError) = .next (reject .usageError finalizedWithError) :=
  ⟨by intro r h _; cases h; decide, rfl⟩

theorem witness_CapacityChangesOnlyByPermutation :
    exec .readStatus finalized = .next (respond 6 finalized) ∧ 136 ≤ (absorbingAt 135).cursor.val + (1 : BitVec 4).toNat ∧
    exec (.absorb 1 7) (absorbingAt 135) = .next (respond 0 (absorbBytes (dataBytes 1 7) (absorbingAt 135))) :=
  ⟨rfl, by decide, rfl⟩

theorem witness_ResponsesDependOnTheViewAlone :
    SameView (absorbingAt 5) { absorbingAt 5 with lanes := lanesOf fun i => BitVec.ofNat 64 i } ∧
    step (absorbingAt 5) = .next (absorbingAt 5) := ⟨by decide, rfl⟩

theorem witness_HiddenLanesNeverShow :
    Indistinguishable finalized { finalized with lanes := finalized.lanes.set 24 99 } ∧
    finalized ≠ { finalized with lanes := finalized.lanes.set 24 99 } ∧ step finalized = .next finalized :=
  ⟨.inr (by decide +kernel), by decide +kernel, rfl⟩

theorem witness_RotationMovesEveryBit : (63 : Nat) < 64 ∧ (0 : Nat) < 64 ∧ rotl64 0x8000000000000001 63 = 0xC000000000000000 := by
  decide

theorem witness_ThetaMixesColumnParities :
    ∀ x y, laneAt (lanesOf fun _ => 3) x y = laneAt (lanesOf fun _ => 1) x y ^^^ laneAt (lanesOf fun _ => 2) x y := by
  decide +kernel

theorem witness_ChiMixesEachRow :
    (∀ x, laneAt (lanesOf fun i => if i < 5 then 0 else 1) x 0 = 0) ∧
    (∀ x', laneAt (lanesOf fun i => if i = 2 then BitVec.allOnes 64 else 0) x' 0 = if x' = 2 then BitVec.allOnes 64 else 0) := by
  decide +kernel

theorem witness_IotaChangesLaneZeroAlone : (24 : Fin 25) ≠ 0 := by decide

theorem witness_WritesReachTheirBytesAlone : 192 + 8 ≤ 200 ∧ 8 ≤ 8 ∧ 7 < 8 := by decide

theorem witness_UpdateAbsorbsItsBytes : (absorbingAt 135).phase = .absorbing := rfl

theorem witness_StreamingEquivalence :
    State.reset.phase = .absorbing ∧ ∀ c ∈ [((8 : BitVec 4), (5 : Lane)), (0, 0)], c.1.toNat ≤ 8 := ⟨rfl, by simp⟩

theorem witness_AbsorbThenFinalizeIsKeccak256 : ResetState State.reset := ⟨rfl, rfl, rfl, rfl, rfl⟩

theorem witness_AssembledCommandsAreLegal :
    assembleLine ['R', 'E', 'A', 'D', '_', 'D', 'I', 'G', 'E', 'S', 'T', ' ', '3'] = .ok [.command 0x0033 0] ∧
    assembleLine ['.', 'w', 'o', 'r', 'd', '1', '6', ' ', '0', 'x', '5'] = .ok [.command 0x0005 0] := by decide +kernel

/-- Two engines: the first has a READ_STATUS to answer, the second host breaks serialisation. -/
def besideAnOverlap : Platform 2 :=
  #v[⟨offered 0x0004 0 finalized, [], none⟩, launchEngine [.overlapped 0x0002 0, .command 0x0004 0]]

/-- 70_reset_and_hazards.md R104: the second engine stops first, and the first still answers. -/
theorem test_refusal_stops_one_engine :
    (runSchedule [1, 0] besideAnOverlap)[0].responses = [⟨.ok, 6⟩] ∧
    (runSchedule [1, 0] besideAnOverlap)[1].stop = some .hostOverlap := ⟨rfl, rfl⟩

theorem witness_EnginesAreIsolated :
    besideAnOverlap[0].stop = none ∧ besideAnOverlap[1].stop = none ∧
    (runSchedule [1, 0] besideAnOverlap)[0] = ⟨respond 6 finalized, [⟨.ok, 6⟩], none⟩ ∧
    (runSchedule [1, 0] besideAnOverlap)[1] = ⟨launch [.overlapped 0x0002 0, .command 0x0004 0], [], some .hostOverlap⟩ ∧
    (stepAt 1 besideAnOverlap)[1].stop ≠ none := ⟨rfl, rfl, rfl, rfl, Option.some_ne_none Refusal.hostOverlap⟩

theorem witness_SerialHostIsAnsweredBesideAnyOthers :
    besideAnOverlap[0].stop = none ∧ HostSerialises besideAnOverlap[0].state ∧
    ¬ HostSerialises besideAnOverlap[1].state := by
  refine ⟨rfl, ?_, fun h => h _ List.mem_cons_self 0x0002 0 rfl⟩
  intro e he cmd data
  rw [List.mem_singleton.mp he]
  exact HostEvent.noConfusion

theorem witness_EnginesCommute : (0 : Fin 2) ≠ 1 := by decide

end Sys2Proof.Tests
end

section
/-! PROOF of O44: writes to the byte view of the state array and reads after them (00_scope.md R10, 20_memory.md R29). -/

namespace Sys2Proof.Machine

/-- `MemWrite` puts byte `i - k` of the datum at each byte `i` of its window and nothing elsewhere; data bytes from 8 on
are 0, so no bound on `n` is needed. -/
theorem getByte_memWrite (L : Lanes) (k n : Nat) (h : k + n ≤ 200) (v : Lane) (i : Fin 200) :
    getByte (memWrite L k v n h) i = if k ≤ i.val ∧ i.val < k + n then byteOf v (i.val - k) else getByte L i := by
  induction n with
  | zero => rw [memWrite, if_neg (by omega)]
  | succ n ih =>
    rw [memWrite, getByte_setByte, ih]
    by_cases hi : i.val = k + n
    · rw [if_pos (Fin.ext hi), if_pos (by omega), hi, Nat.add_sub_cancel_left]
    · rw [if_neg fun he => hi (congrArg Fin.val he)]
      exact if_congr (by omega) rfl rfl

theorem byteOf_or (v w : Lane) (j : Nat) : byteOf (v ||| w) j = byteOf v j ||| byteOf w j :=
  BitVec.extractLsb'_or

@[simp] theorem byteOf_zero (j : Nat) : byteOf 0#64 j = 0#8 := BitVec.extractLsb'_zero

/-- A lone byte shifted to place `n` is a lane of zeros with that byte replaced. -/
theorem replaceByte_zero (n : Nat) (b : Byte) : replaceByte 0#64 n b = b.setWidth 64 <<< (8 * n) := by
  simp [replaceByte]

/-- `MemRead` concatenates the bytes of its window, zero-extended. -/
theorem byteOf_memRead (L : Lanes) (k n : Nat) (h : k + n ≤ 200) (hn : n ≤ 8) (j : Nat) :
    byteOf (memRead L k n h) j = if hj : j < n then getByte L ⟨k + j, by omega⟩ else 0#8 := by
  induction n with
  | zero => simp [memRead]
  | succ n ih =>
    rw [memRead, byteOf_or, ih _ (by omega), ← replaceByte_zero, byteOf_replaceByte _ _ _ (by omega), byteOf_zero]
    rcases lt_trichotomy j n with hlt | rfl | hgt
    · rw [dif_pos hlt, if_neg hlt.ne, dif_pos (by omega), BitVec.or_zero]
    · rw [dif_neg j.lt_irrefl, if_pos rfl, dif_pos j.lt_succ_self, BitVec.zero_or]
    · rw [dif_neg hgt.not_gt, if_neg hgt.ne', dif_neg (by omega), BitVec.or_zero]

/-- `MemRead` after `MemWrite` at the same window gives back the bytes written. -/
theorem byteOf_memRead_memWrite (L : Lanes) (k n : Nat) (h : k + n ≤ 200) (hn : n ≤ 8) (v : Lane) (j : Nat) (hj : j < n) :
    byteOf (memRead (memWrite L k v n h) k n h) j = byteOf v j := by
  rw [byteOf_memRead _ k n h hn, dif_pos hj, getByte_memWrite, if_pos ⟨by simp, by simpa using hj⟩]
  simp

end Sys2Proof.Machine

namespace Sys2Proof

open Machine

/-- Settles O44: the law of one byte write, and the byte-by-byte laws of `MemWrite` and of `MemRead` after it. -/
theorem writesReachTheirBytesAlone : Obligations.WritesReachTheirBytesAlone :=
  ⟨getByte_setByte, fun L k n h v hn =>
    ⟨getByte_memWrite L k n h v, byteOf_memRead_memWrite L k n h hn v⟩⟩

end Sys2Proof
end

section
/-! PROOF of O29 and O30: the invariants of 10_state.md R25 hold at power-on, and every update of the state keeps them. -/

namespace Sys2Proof.Machine

open Safety

variable {s t : State}

theorem stateInv_respond (d : Lane) (h : StateInv s) : StateInv (respond d s) := h

theorem stateInv_reject {c : RCode} (hc : c ≠ .ok) (h : StateInv s) : StateInv (reject c s) :=
  ⟨h.1, nofun, fun _ => hc⟩

theorem stateInv_of_resetState (h : ResetState s) : StateInv s := by
  obtain ⟨-, hcursor, -, herr, hecode⟩ := h
  exact ⟨fun _ => hcursor, fun _ => hecode, by simp [herr]⟩

theorem resetState_clearEngine (s : State) : ResetState (clearEngine s) := ⟨rfl, rfl, rfl, rfl, rfl⟩

theorem resetState_hardwareReset (s : State) : ResetState (hardwareReset s) := resetState_clearEngine s

/-- CURSOR may move while Absorbing: the clause on it speaks of Finalized states alone. -/
theorem stateInv_absorbBytes (bs : List Byte) (hp : s.phase = .absorbing) (h : StateInv s) :
    StateInv (absorbBytes bs s) := by
  obtain ⟨-, hrecord⟩ := h
  exact ⟨by simp [hp], by simpa using hrecord⟩

theorem stateInv_finishMessage (h : StateInv s) : StateInv (finishMessage s) := ⟨fun _ => rfl, h.2⟩

theorem exec_keeps_stateInv {i : Instr} (he : exec i s = .next t) (h : StateInv s) : StateInv t := by
  rcases exec_cases i s t he with ⟨c, hc, rfl⟩ | ⟨-, rfl⟩ | ⟨n, data, -, -, hp, rfl⟩ | ⟨-, -, rfl⟩ | ⟨w, -, -, -, rfl⟩ |
    ⟨-, rfl⟩
  · exact stateInv_reject hc h
  · exact stateInv_respond 0 (stateInv_of_resetState (resetState_clearEngine s))
  · exact stateInv_respond 0 (stateInv_absorbBytes _ hp h)
  · exact stateInv_respond 0 (stateInv_finishMessage h)
  · exact stateInv_respond _ h
  · exact stateInv_respond _ h

theorem step_keeps_stateInv (hs : step s = .next t) (h : StateInv s) : StateInv t := by
  rcases step_cases s t hs with ⟨-, rfl⟩ | ⟨rest, -, rfl⟩ | ⟨cmd, data, rest, e, -, -, rfl⟩ | ⟨cmd, data, rest, i, -, -, he⟩
  · exact h
  · exact stateInv_of_resetState (resetState_hardwareReset _)
  · exact stateInv_reject (by decide) h
  · exact exec_keeps_stateInv he h

end Sys2Proof.Machine

namespace Sys2Proof

open Machine

/-- Settles O29: each of the six answers of a command keeps the invariants, and so does each kind of step. -/
theorem everyStepKeepsTheInvariants : Obligations.EveryStepKeepsTheInvariants :=
  fun _ _ h hs => step_keeps_stateInv hs h

/-- Settles O30: power-on is a reset state, and its response port is empty. -/
theorem invariantsAtReset : Obligations.InvariantsAtReset :=
  ⟨stateInv_of_resetState (resetState_clearEngine State.reset), nofun⟩

end Sys2Proof
end

section
/-! PROOF of O50: an engine among others makes its own steps alone (10_state.md R27, 70_reset_and_hazards.md R104). -/

namespace Sys2Proof.Machine

/-- A schedule moves engine k exactly as often as it names k, and nothing else moves it. -/
theorem runSchedule_getElem {n : Nat} (order : List (Fin n)) (p : Platform n) (k : Fin n) :
    (runSchedule order p)[k] = engineStep^[order.count k] p[k] := by
  induction order generalizing p with
  | nil => rfl
  | cons j order ih =>
    rw [runSchedule_cons, ih]
    by_cases hj : j = k
    · rw [hj, stepAt_self, List.count_cons_self, Function.iterate_succ_apply]
    · rw [stepAt_other j k p hj, List.count_cons_of_ne hj]

theorem engineStep_iterate_stopped (e : Engine) (h : e.stop ≠ none) (m : Nat) : engineStep^[m] e = e := by
  obtain ⟨r, hr⟩ := Option.ne_none_iff_exists'.mp h
  exact Function.iterate_fixed (engineStep_stopped e r hr) m

/-- What `m` steps make of a running engine: the run of its own state, with its responses, or the refusal at which that
run ends, with the state and responses before it. -/
theorem engineStep_iterate (e : Engine) (h : e.stop = none) (m : Nat) :
    (∃ rs s, runResponses m e.state = some (rs, s) ∧ Host.Core.run core m e.state = .next s ∧
      engineStep^[m] e = ⟨s, e.responses ++ rs, none⟩) ∨
    (∃ l rs s r, l < m ∧ runResponses l e.state = some (rs, s) ∧ step s = .refused r ∧
      Host.Core.run core m e.state = .refused r ∧ engineStep^[m] e = ⟨s, e.responses ++ rs, some r⟩) := by
  induction m generalizing e with
  | zero => exact .inl ⟨[], e.state, rfl, rfl, by simp [← h]⟩
  | succ m ih =>
    rw [Function.iterate_succ_apply]
    cases hs : step e.state with
    | next s' =>
      rw [engineStep_next e s' h hs, coreRun_next m _ _ hs, runResponses_next m _ _ hs]
      rcases ih ⟨s', e.responses ++ answer e.state s', none⟩ rfl with
        ⟨rs, s, hrun, hcore, hiter⟩ | ⟨l, rs, s, r, hl, hrun, hr, hcore, hiter⟩
      · exact .inl ⟨answer e.state s' ++ rs, s, by simp [hrun], hcore, by simp [hiter]⟩
      · exact .inr ⟨l + 1, answer e.state s' ++ rs, s, r, by omega, by simp [runResponses_next l _ _ hs, hrun], hr, hcore,
          by simp [hiter]⟩
    | fault r => exact nomatch r
    | refused r =>
      rw [engineStep_refused e r h hs, engineStep_iterate_stopped _ (by simp), coreRun_refused m _ r hs]
      exact .inr ⟨0, [], e.state, r, by omega, rfl, hs, rfl, by simp⟩

end Sys2Proof.Machine

namespace Sys2Proof

open Machine

/-- Settles O50: in any schedule engine k is iterated on its own, and the iteration follows its own run. -/
theorem enginesAreIsolated : Obligations.EnginesAreIsolated := by
  intro n order p k
  rw [runSchedule_getElem]
  exact ⟨fun h => engineStep_iterate p[k] h _, fun h => engineStep_iterate_stopped p[k] h _⟩

end Sys2Proof
end

section
/-! PROOF of O23, O24 and O25: what a command leaves of the error record and, while Finalized, of the digest (10_state.md
R18, R19, R21, 60_exceptions.md R88). -/

namespace Sys2Proof.Machine

open Safety

variable {s t : State}

/-- The decoder answers a command for that command's own word alone (30_encoding.md R46). -/
theorem cmd_eq_of_decode_ok {cmd : Cmd} {data : Lane} {i : Instr} (h : decode cmd data = .ok i) : cmd = (encode i).1 := by
  obtain ⟨hrsv, hfields⟩ := (decode_ok cmd data i).mp h
  rw [← cmdWord_of_fields cmd hrsv]
  rcases hfields with ⟨ho, hc, rfl⟩ | ⟨ho, -, rfl⟩ | ⟨ho, hc, rfl⟩ | ⟨ho, -, rfl⟩ | ⟨ho, hc, rfl⟩ <;> simp [encode, *]

/-- The three things a command can do to the error record: overwrite it by a rejection, clear it by RESET, or leave it. -/
theorem exec_record {i : Instr} (he : exec i s = .next t) :
    (∃ c, c ≠ .ok ∧ t = reject c s) ∨ (i = .reset ∧ t = respond 0 (clearEngine s)) ∨
    (t.err = s.err ∧ t.ecode = s.ecode ∧ ∃ d, t.response = some ⟨.ok, d⟩) := by
  rcases exec_cases i s t he with hrej | hreset | ⟨n, data, -, -, -, rfl⟩ | ⟨-, -, rfl⟩ | ⟨w, -, -, -, rfl⟩ | ⟨-, rfl⟩
  · exact .inl hrej
  · exact .inr (.inl hreset)
  all_goals exact .inr (.inr ⟨by simp, by simp, _, rfl⟩)

/-- From a Finalized state a command is RESET, or it keeps S, CURSOR and PHASE: ABSORB and FINALIZE are not accepted. -/
theorem exec_finalized {i : Instr} (he : exec i s = .next t) (hp : s.phase = .finalized) :
    (i = .reset ∧ t = respond 0 (clearEngine s)) ∨ (t.phase = .finalized ∧ t.lanes = s.lanes ∧ t.cursor = s.cursor) := by
  rcases exec_cases i s t he with ⟨c, -, rfl⟩ | hreset | ⟨n, data, -, -, ha, -⟩ | ⟨-, ha, -⟩ | ⟨w, -, -, -, rfl⟩ | ⟨-, rfl⟩
  · exact .inr ⟨hp, rfl, rfl⟩
  · exact .inl hreset
  · simp [hp] at ha
  · simp [hp] at ha
  · exact .inr ⟨hp, rfl, rfl⟩
  · exact .inr ⟨hp, rfl, rfl⟩

/-- What stands next at the port is the RESET word or a hardware reset. -/
abbrev ResetNext (s : State) : Prop :=
  (∃ data rest, s.host = .command 0x0000 data :: rest) ∨ (∃ rest, s.host = .hardReset :: rest)

/-- What no step but a reset undoes: ERR once set, and S, CURSOR and PHASE once Finalized. -/
structure KeepsErrorAndDigest (s t : State) : Prop where
  err : s.err = true → t.err = true
  digest : s.phase = .finalized → t.phase = .finalized ∧ t.lanes = s.lanes ∧ t.cursor = s.cursor

theorem exec_resets_or_keeps {i : Instr} (he : exec i s = .next t) :
    (i = .reset ∧ ResetState t) ∨ KeepsErrorAndDigest s t := by
  by_cases hi : i = .reset
  · subst hi
    cases he
    exact .inl ⟨rfl, resetState_clearEngine s⟩
  · refine .inr ⟨fun herr => ?_, fun hp => (exec_finalized he hp).resolve_left fun h => hi h.1⟩
    rcases exec_record he with ⟨c, -, rfl⟩ | ⟨hreset, -⟩ | ⟨hkeep, -, -⟩
    · rfl
    · exact absurd hreset hi
    · rw [hkeep, herr]

theorem step_resets_or_keeps (hs : step s = .next t) : (ResetState t ∧ ResetNext s) ∨ KeepsErrorAndDigest s t := by
  rcases step_cases s t hs with ⟨-, rfl⟩ | ⟨rest, hh, rfl⟩ | ⟨cmd, data, rest, e, -, -, rfl⟩ | ⟨cmd, data, rest, i, hh, hd, he⟩
  · exact .inr ⟨id, fun hp => ⟨hp, rfl, rfl⟩⟩
  · exact .inl ⟨resetState_hardwareReset _, .inr ⟨rest, hh⟩⟩
  · exact .inr ⟨fun _ => rfl, fun hp => ⟨hp, rfl, rfl⟩⟩
  · rcases exec_resets_or_keeps he with ⟨rfl, hreset⟩ | ⟨herr, hdigest⟩
    · obtain rfl := cmd_eq_of_decode_ok hd
      exact .inl ⟨hreset, .inl ⟨data, rest, hh⟩⟩
    · exact .inr ⟨herr, hdigest⟩

end Sys2Proof.Machine

namespace Sys2Proof

open Machine

/-- Settles O23, by the three things a command can do to the error record. -/
theorem acceptedCommandsKeepTheErrorRecord : Obligations.AcceptedCommandsKeepTheErrorRecord := by
  intro i s t r he hr
  rcases exec_record he with ⟨c, hc, rfl⟩ | ⟨rfl, rfl⟩ | ⟨herr, hecode, d, hresp⟩
  · cases hr
    exact ⟨fun hok => absurd hok hc, fun _ => ⟨rfl, rfl⟩⟩
  · cases hr
    exact ⟨fun _ hi => absurd rfl hi, fun hok => absurd rfl hok⟩
  · cases hresp.symm.trans hr
    exact ⟨fun _ _ => ⟨herr, hecode⟩, fun hok => absurd rfl hok⟩

/-- Settles O24: a step that is no reset keeps ERR once it is set. -/
theorem onlyResetClearsTheError : Obligations.OnlyResetClearsTheError := by
  intro s t hs hset hclear
  rcases step_resets_or_keeps hs with ⟨-, hnext⟩ | hkeeps
  · exact hnext
  · simp [hkeeps.err hset] at hclear

/-- Settles O25: a step that is no reset keeps S, CURSOR and PHASE once Finalized. -/
theorem digestIsImmutableUntilReset : Obligations.DigestIsImmutableUntilReset :=
  fun _ _ hs hp => (step_resets_or_keeps hs).symm.imp (fun hkeeps => hkeeps.digest hp) id

end Sys2Proof
end

section
/-! PROOF of O32: bytes that stay inside the block never reach the capacity, lanes 17 to 24 (10_state.md R15). -/

namespace Sys2Proof.Machine

/-- Two arrays that agree on the bytes of a lane agree on the lane (20_memory.md R29). -/
theorem lane_eq_of_bytes {L M : Lanes} (i : Fin 25)
    (h : ∀ j : Fin 8, getByte L ⟨8 * i.val + j.val, by omega⟩ = getByte M ⟨8 * i.val + j.val, by omega⟩) :
    L[i] = M[i] := by
  apply lane_ext_bytes
  intro j hj
  have := h ⟨j, hj⟩
  simpa [getByte, show (8 * i.val + j) / 8 = i.val by omega, show (8 * i.val + j) % 8 = j by omega] using this

theorem absorbBytes_inside_capacity (bs : List Byte) (s : State) (h : s.cursor.val + bs.length < 136) (i : Fin 25)
    (hi : 17 ≤ i.val) : (absorbBytes bs s).lanes[i] = s.lanes[i] := by
  apply lane_eq_of_bytes
  intro j
  rw [absorbBytes_inside bs s h, if_neg (by simp only; omega)]

end Sys2Proof.Machine

namespace Sys2Proof

open Machine

/-- Settles O32: of the accepted commands only RESET, FINALIZE and ABSORB write S, and an ABSORB that does not fill the
block writes rate bytes alone. -/
theorem capacityChangesOnlyByPermutation : Obligations.CapacityChangesOnlyByPermutation := by
  intro i s t he
  rcases exec_cases i s t he with ⟨c, -, rfl⟩ | ⟨hi, -⟩ | ⟨n, data, hi, hn, hp, rfl⟩ | ⟨hi, hp, -⟩ | ⟨w, -, -, -, rfl⟩ |
    ⟨-, rfl⟩
  · exact .inl fun _ => rfl
  · exact .inr (.inl hi)
  · by_cases hfull : 136 ≤ s.cursor.val + n.toNat
    · exact .inr (.inr (.inr ⟨n, data, hi, hn, hp, hfull⟩))
    · refine .inl fun j => absorbBytes_inside_capacity _ s ?_ ⟨17 + j.val, by omega⟩ (Nat.le_add_right 17 j.val)
      rw [dataBytes_length]
      omega
  · exact .inr (.inr (.inl ⟨hi, hp⟩))
  · exact .inl fun _ => rfl
  · exact .inl fun _ => rfl

end Sys2Proof
end

section
/-! PROOF of O43: a lane is its eight bytes, the lowest first (20_memory.md R29). -/

namespace Sys2Proof.Machine

/-- Byte 8i + j of the array is byte j of lane i. -/
theorem getByte_lane (L : Lanes) (i : Fin 25) (j : Nat) (hj : j < 8) :
    getByte L ⟨8 * i.val + j, by omega⟩ = byteOf L[i] j := by
  simp [getByte, show (8 * i.val + j) / 8 = i.val by omega, show (8 * i.val + j) % 8 = j by omega]

/-- The bit form of R29: bit z of a lane is bit z mod 8 of its byte z div 8. -/
theorem lane_getLsbD (L : Lanes) (i : Fin 25) (z : Fin 64) :
    (L[i]).getLsbD z.val = (getByte L ⟨8 * i.val + z.val / 8, by omega⟩).getLsbD (z.val % 8) := by
  rw [getByte_lane L i _ (by omega), byteOf_getLsbD, decide_eq_true (by omega), Bool.true_and, Nat.div_add_mod]

/-- The eight bytes of a lane's window, read little-endian, are the lane. -/
theorem memRead_lane (L : Lanes) (i : Fin 25) : memRead L (8 * i.val) 8 (by omega) = L[i] := by
  apply lane_ext_bytes
  intro j hj
  rw [byteOf_memRead L _ 8 _ le_rfl, dif_pos hj, getByte_lane L i j hj]

end Sys2Proof.Machine

namespace Sys2Proof

open Machine

/-- Settles O43: each bit of a lane has its place in one byte, and the lane's eight bytes read back make the lane. -/
theorem bytesAreLittleEndianInLanes : Obligations.BytesAreLittleEndianInLanes :=
  ⟨lane_getLsbD, memRead_lane⟩

end Sys2Proof
end

section
/-! PROOF of O51: two engines of a platform are two places of it, so their steps commute (20_memory.md R37). -/

namespace Sys2Proof.Machine

theorem stepAt_comm {n : Nat} {j k : Fin n} (p : Platform n) (h : j ≠ k) :
    stepAt k (stepAt j p) = stepAt j (stepAt k p) := by
  have hj : stepAt j (stepAt k p) = (stepAt k p).set j (engineStep p[j]) := by rw [stepAt, stepAt_other k j p h.symm]
  have hk : stepAt k (stepAt j p) = (stepAt j p).set k (engineStep p[k]) := by rw [stepAt, stepAt_other j k p h]
  rw [hj, hk, stepAt, stepAt]
  exact Vector.set_comm _ _ (Fin.val_ne_of_ne h)

end Sys2Proof.Machine

namespace Sys2Proof

open Machine

/-- Settles O51: the two writes go to different places, and neither engine's step reads the other's place. -/
theorem enginesCommute : Obligations.EnginesCommute := by
  intro n j k p h
  refine ⟨stepAt_comm p h, ?_, ?_⟩
  · rw [stepAt_other k j _ h.symm, stepAt_self]
  · rw [stepAt_self, stepAt_other j k p h]

end Sys2Proof
end

section
/-! PROOF of O1 to O5: the encoder and the decoder agree, and which words are legal (30_encoding.md R41 to R47). -/

namespace Sys2Proof

/-- The word of a command is legal exactly when its count is admitted (30_encoding.md R44). -/
theorem legal_encode (i : Instr) : legal (encode i).1 = i.wellFormed := by
  cases i with
  | reset => exact Laws.Encoding.reset.2
  | absorb n data => exact (Laws.Encoding.absorb n data).2
  | finalize => exact Laws.Encoding.finalize.2
  | readDigest w => exact (Laws.Encoding.readDigest w).2
  | readStatus => exact Laws.Encoding.readStatus.2

theorem decode_encode (i : Instr) (h : i.wellFormed = true) : decode (encode i).1 (encode i).2 = .ok i := by
  rw [decode_ok]
  cases i with
  | reset => simp [encode]
  | absorb n data => simpa [encode, Instr.wellFormed] using h
  | finalize => simp [encode]
  | readDigest w => simpa [encode, Instr.wellFormed] using h
  | readStatus => simp [encode]

/-- A legal word is the word of a well-formed command. -/
theorem legal_iff_encode (cmd : Cmd) : legal cmd = true ↔ ∃ i : Instr, i.wellFormed = true ∧ cmd = (encode i).1 := by
  refine ⟨fun h => ?_, ?_⟩
  · obtain ⟨i, hi⟩ := (legal_iff_decode_ok cmd 0).mp h
    obtain rfl := Machine.cmd_eq_of_decode_ok hi
    exact ⟨i, by rw [← legal_encode, h], rfl⟩
  · rintro ⟨i, hi, rfl⟩
    rw [legal_encode, hi]

/-- The command words of the table of 30_encoding.md R46, in its order. -/
def legalWords : List Cmd :=
  [0x0000, 0x0001, 0x0011, 0x0021, 0x0031, 0x0041, 0x0051, 0x0061, 0x0071, 0x0081, 0x0002, 0x0003, 0x0013, 0x0023, 0x0033,
    0x0004]

theorem legal_of_mem_legalWords {cmd : Cmd} (h : cmd ∈ legalWords) : legal cmd = true :=
  List.all_eq_true.mp (by decide : legalWords.all legal = true) cmd h

theorem encode_mem_legalWords (i : Instr) (h : i.wellFormed = true) : (encode i).1 ∈ legalWords := by
  cases i with
  | reset => decide
  | absorb n data => revert n; simp only [encode, Instr.wellFormed]; decide
  | finalize => decide
  | readDigest w => revert w; decide
  | readStatus => decide

/-- A command word with RSV = 0 as a number: CNT is its second hexadecimal digit, OPC its lowest. -/
theorem cmdWord_eq_ofNat (cnt opc : BitVec 4) : cmdWord cnt opc = BitVec.ofNat 16 (16 * cnt.toNat + opc.toNat) := by
  revert cnt opc; decide

theorem ofNat_eq_cmdWord (n : Nat) (hn : n < 16) (opc : BitVec 4) :
    BitVec.ofNat 16 (16 * n + opc.toNat) = cmdWord (BitVec.ofNat 4 n) opc := by
  rw [cmdWord_eq_ofNat, BitVec.toNat_ofNat, Nat.mod_eq_of_lt hn]

theorem decode_absorbWord (n : Nat) (hn : n ≤ 8) (data : Lane) :
    decode (BitVec.ofNat 16 (16 * n + 1)) data = .ok (.absorb (BitVec.ofNat 4 n) data) := by
  have hword : BitVec.ofNat 16 (16 * n + 1) = cmdWord (BitVec.ofNat 4 n) 1 := ofNat_eq_cmdWord n (by omega) 1
  rw [hword, decode_ok]
  simp; omega

theorem decode_readDigestWord (w : Nat) (hw : w ≤ 3) (data : Lane) :
    decode (BitVec.ofNat 16 (16 * w + 3)) data = .ok (.readDigest (BitVec.ofNat 4 w)) := by
  have hword : BitVec.ofNat 16 (16 * w + 3) = cmdWord (BitVec.ofNat 4 w) 3 := ofNat_eq_cmdWord w (by omega) 3
  rw [hword, decode_ok]
  simp; omega

/-! ### The three classes of illegal words (30_encoding.md R45) -/

theorem decode_reservedBits (cmd : Cmd) (data : Lane) (h : rsvOf cmd ≠ 0) :
    decode cmd data = .error .reservedBits := by
  rw [decode, if_pos h]

theorem decode_reservedOpcode (cmd : Cmd) (data : Lane) (hr : rsvOf cmd = 0) (h : 5 ≤ (opcOf cmd).toNat) :
    decode cmd data = .error .reservedOpcode := by
  rw [decode, if_neg (not_not_intro hr)]
  split
  case h_6 => rfl
  all_goals omega

theorem checkCount_error {i : Instr} {ok : Bool} {e : DecodeError} (h : checkCount i ok = .error e) : e = .countRange := by
  cases ok <;> cases h
  rfl

/-- With RSV = 0 and one of the five opcodes, an illegal word is refused for its count. -/
theorem decode_countRange (cmd : Cmd) (data : Lane) (hr : rsvOf cmd = 0) (ho : (opcOf cmd).toNat < 5)
    (hl : legal cmd = false) : decode cmd data = .error .countRange := by
  obtain ⟨e, he⟩ := (not_legal_iff_decode_error cmd data).mp hl
  rw [he]
  rw [decode, if_neg (not_not_intro hr)] at he
  generalize (opcOf cmd).toNat = opc at ho he
  interval_cases opc
  all_goals rw [checkCount_error he]

end Sys2Proof

namespace Sys2Proof

open Machine

/-- Settles O1: the fields of the encoded word are the command's, so the decoder reads the command back. -/
theorem decodeOfEncodeIsTheCommand : Obligations.DecodeOfEncodeIsTheCommand := decode_encode

/-- Settles O2, by what the decoder accepts field by field. -/
theorem decodeFollowsLegalAndOpcode : Obligations.DecodeFollowsLegalAndOpcode := by
  intro cmd data
  refine ⟨(not_legal_iff_decode_error cmd data).mp, fun h => ?_⟩
  obtain ⟨i, hi⟩ := (legal_iff_decode_ok cmd data).mp h
  rw [hi]
  obtain ⟨-, hfields⟩ := (decode_ok cmd data i).mp hi
  rcases hfields with ⟨ho, -, rfl⟩ | ⟨ho, -, rfl⟩ | ⟨ho, -, rfl⟩ | ⟨ho, -, rfl⟩ | ⟨ho, -, rfl⟩
  · exact .inl ⟨ho, rfl⟩
  · exact .inr (.inl ⟨ho, rfl⟩)
  · exact .inr (.inr (.inl ⟨ho, rfl⟩))
  · exact .inr (.inr (.inr (.inl ⟨ho, rfl⟩)))
  · exact .inr (.inr (.inr (.inr ⟨ho, rfl⟩)))

/-- Settles O3: the legal words are the words of the well-formed commands, and the table lists these. -/
theorem sixteenWordsAreLegal : Obligations.SixteenWordsAreLegal := by
  refine ⟨fun cmd => ⟨fun h => ?_, legal_of_mem_legalWords⟩, fun data =>
    ⟨rfl, fun n hn => decode_absorbWord n hn data, rfl, fun w hw => decode_readDigestWord w hw data, rfl⟩⟩
  obtain ⟨i, hi, rfl⟩ := (legal_iff_encode cmd).mp h
  exact encode_mem_legalWords i hi

/-- Settles O4, class by class. -/
theorem illegalWordsAreNamedByClass : Obligations.IllegalWordsAreNamedByClass := by
  intro cmd data
  refine ⟨decode_reservedBits cmd data, decode_reservedOpcode cmd data, fun hr ho hc => ?_, fun hr ho hc => ?_,
    fun hr ho hc => ?_⟩
  · exact decode_countRange cmd data hr (by simp [ho]) (by simp [legal, ho]; omega)
  · exact decode_countRange cmd data hr (by simp [ho]) (by simp [legal, ho]; omega)
  · rcases ho with ho | ho | ho <;>
      exact decode_countRange cmd data hr (by simp [ho]) (by simpa [legal, ho] using fun _ => hc)

/-- Settles O5: each word is the encoder's for its command, DATA aside where the command ignores it. -/
theorem writtenOutWordsDecode : Obligations.WrittenOutWordsDecode :=
  ⟨decode_encode .reset rfl, decode_encode (.absorb 3 0x636261) rfl, decode_encode (.absorb 8 7) rfl, rfl,
    decode_encode (.readDigest 2) rfl, decode_encode .readStatus rfl⟩

end Sys2Proof
end

section
/-! PROOF of O7, O8, O28 and O31: what a step makes of an illegal word, of nothing, and of DATA, and what it keeps of the
response port (30_encoding.md R44, R49, R50, 60_exceptions.md R83, R88). -/

namespace Sys2Proof.Machine

open Safety

variable {s t : State}

theorem step_illegal {cmd : Cmd} {data : Lane} {rest : List HostEvent} (hh : s.host = .command cmd data :: rest)
    (hl : legal cmd = false) : step s = .next (reject .illegalCmd { s with host := rest }) := by
  obtain ⟨e, he⟩ := (not_legal_iff_decode_error cmd data).mp hl
  rw [step_command s cmd data rest hh, transact_error cmd data e _ he]

/-- An ABSORB reads the low CNT bytes of DATA and no others. -/
theorem exec_absorb_congr {n : BitVec 4} {data data' : Lane} (h : ∀ k < n.toNat, byteOf data k = byteOf data' k) :
    exec (.absorb n data) s = exec (.absorb n data') s := by
  simp only [exec, execAbsorb, dataBytes_congr n.toNat data data' h]

/-- The command with another operand DATA, which ABSORB alone holds. -/
def withData (data : Lane) : Instr → Instr
  | .absorb n _ => .absorb n data
  | i => i

theorem checkCount_map (f : Instr → Instr) (i : Instr) (ok : Bool) : (checkCount i ok).map f = checkCount (f i) ok := by
  cases ok <;> rfl

/-- Legality and the choice of the command rest on CMD alone; DATA is only carried along (30_encoding.md R44, R47). -/
theorem decode_withData (cmd : Cmd) (data data' : Lane) : decode cmd data' = (decode cmd data).map (withData data') := by
  unfold decode
  split
  · rfl
  · split
    case h_6 => rfl
    all_goals simp only [checkCount_map, withData]

theorem transact_congr {cmd : Cmd} {data data' : Lane}
    (h : opcOf cmd = 1 → legal cmd = true → ∀ k < (cntOf cmd).toNat, byteOf data k = byteOf data' k) :
    transact cmd data s = transact cmd data' s := by
  cases hd : decode cmd data with
  | error e =>
    have hd' : decode cmd data' = .error e := by rw [decode_withData cmd data, hd]; rfl
    rw [transact_error _ _ _ _ hd, transact_error _ _ _ _ hd']
  | ok i =>
    have hd' : decode cmd data' = .ok (withData data' i) := by rw [decode_withData cmd data, hd]; rfl
    rw [transact_ok _ _ _ _ hd, transact_ok _ _ _ _ hd']
    have hl : legal cmd = true := (legal_iff_decode_ok cmd data).mpr ⟨i, hd⟩
    obtain ⟨-, hfields⟩ := (decode_ok cmd data i).mp hd
    rcases hfields with ⟨-, -, rfl⟩ | ⟨ho, -, rfl⟩ | ⟨-, -, rfl⟩ | ⟨-, -, rfl⟩ | ⟨-, -, rfl⟩
    · rfl
    · exact exec_absorb_congr (h ho hl)
    · rfl
    · rfl
    · rfl

theorem portInv_respond (d : Lane) : PortInv (respond d s) := by
  rintro r ⟨⟩ hr
  exact absurd rfl hr

theorem portInv_reject (c : RCode) : PortInv (reject c s) := by
  rintro r ⟨⟩ -
  exact ⟨rfl, rfl, rfl⟩

/-- Every command writes the port, so nothing need be known of it before. -/
theorem exec_portInv {i : Instr} (he : exec i s = .next t) : PortInv t := by
  rcases exec_cases i s t he with ⟨c, -, rfl⟩ | ⟨-, rfl⟩ | ⟨n, data, -, -, -, rfl⟩ | ⟨-, -, rfl⟩ | ⟨w, -, -, -, rfl⟩ | ⟨-, rfl⟩
  · exact portInv_reject c
  all_goals exact portInv_respond _

end Sys2Proof.Machine

namespace Sys2Proof

open Machine

/-- Settles O7: the predicate written out is `legal`, and the decoder refuses every word for which it is false. -/
theorem stepRejectsIllegalWords : Obligations.StepRejectsIllegalWords := by
  intro s cmd data rest hh hnot
  refine step_illegal hh (Bool.eq_false_iff.mpr fun hl => hnot ?_)
  simpa [legal, or_assoc] using hl

/-- Settles O8, by the equation of `step` for an empty port. -/
theorem idleEngineWaits : Obligations.IdleEngineWaits := step_idle

/-- Settles O28: with other DATA the decoder answers the same command, and an ABSORB of n bytes reads n bytes of it. -/
theorem ignoredDataNeverMatters : Obligations.IgnoredDataNeverMatters := fun _ _ _ _ h => transact_congr h

/-- Settles O31: a command writes the port with the record it reports, a hardware reset empties it, and an idle step
changes nothing. -/
theorem everyStepKeepsThePortInvariant : Obligations.EveryStepKeepsThePortInvariant := by
  intro s t h hs
  rcases step_cases s t hs with ⟨-, rfl⟩ | ⟨rest, -, rfl⟩ | ⟨cmd, data, rest, e, -, -, rfl⟩ | ⟨cmd, data, rest, i, -, -, he⟩
  · exact h
  · exact nofun
  · exact portInv_reject _
  · exact exec_portInv he

end Sys2Proof
end

section
/-! PROOF of O45: the ABSORBs of UPDATE carry the bytes of the string in order (30_encoding.md R52). -/

namespace Sys2Proof.Machine

/-! ### DATA packs up to eight bytes -/

theorem byteOf_shiftLeft_eight (v : Lane) (j : Nat) (hj : j < 8) :
    byteOf (v <<< 8) j = if j = 0 then 0 else byteOf v (j - 1) := by
  apply BitVec.eq_of_getLsbD_eq
  intro z hz
  rw [byteOf_getLsbD, BitVec.getLsbD_shiftLeft, decide_eq_true (show 8 * j + z < 64 by omega)]
  split
  · subst j
    simp [hz]
  · rw [byteOf_getLsbD, decide_eq_false (show ¬ 8 * j + z < 8 by omega), show 8 * j + z - 8 = 8 * (j - 1) + z by omega]
    rfl

theorem byteOf_setWidth (b : Byte) (j : Nat) : byteOf (b.setWidth 64) j = if j = 0 then b else 0 := by
  apply BitVec.eq_of_getLsbD_eq
  intro z hz
  rw [byteOf_getLsbD, BitVec.getLsbD_setWidth]
  split
  · subst j
    simp [hz, show z < 64 by omega]
  · simp [BitVec.getLsbD_of_ge b (8 * j + z) (by omega)]

/-- Byte j of DATA is byte j of the string. -/
theorem byteOf_dataWord (m : List Byte) (j : Nat) (hj : j < 8) : byteOf (dataWord m) j = m.getD j 0 := by
  induction m generalizing j with
  | nil => exact byteOf_zero j
  | cons b m ih =>
    change byteOf ((dataWord m <<< 8) ||| b.setWidth 64) j = _
    rw [byteOf_or, byteOf_shiftLeft_eight _ _ hj, byteOf_setWidth]
    cases j with
    | zero => simp
    | succ j => simp [ih j (by omega)]

theorem dataBytes_dataWord (m : List Byte) (hm : m.length ≤ 8) : dataBytes m.length (dataWord m) = m := by
  refine List.ext_getElem (dataBytes_length _ _) fun j _ hj => ?_
  rw [← List.getD_eq_getElem m 0 hj, ← byteOf_dataWord m j (by omega)]
  simp [dataBytes]

/-! ### UPDATE as the operands of its ABSORBs -/

/-- The strings of at most 8 bytes that UPDATE sends one by one (30_encoding.md R52). -/
def updateChunks (m : List Byte) : List (List Byte) :=
  if m.length = 0 then [[]] else (List.range ((m.length + 7) / 8)).map fun q => (m.drop (8 * q)).take 8

/-- The operands with which ABSORB takes a string of at most 8 bytes. -/
def packed (c : List Byte) : BitVec 4 × Lane := (BitVec.ofNat 4 c.length, dataWord c)

theorem length_le_of_mem_updateChunks {m c : List Byte} (h : c ∈ updateChunks m) : c.length ≤ 8 := by
  unfold updateChunks at h
  split at h
  · simp_all
  · obtain ⟨q, -, rfl⟩ := List.mem_map.mp h
    simp

theorem updateChunks_ne_nil (m : List Byte) : updateChunks m ≠ [] := by
  unfold updateChunks
  split
  · simp
  · simp; omega

theorem flatMap_range_chunk (m : List Byte) (k : Nat) :
    (List.range k).flatMap (fun q => (m.drop (8 * q)).take 8) = m.take (8 * k) := by
  induction k with
  | zero => simp
  | succ k ih => simp [List.range_succ, ih, Nat.mul_succ, List.take_add]

theorem updateChunks_flatten (m : List Byte) : (updateChunks m).flatten = m := by
  unfold updateChunks
  split
  · simp_all
  · rw [← List.flatMap_def, flatMap_range_chunk, List.take_of_length_le (by omega)]

theorem updateProgram_eq_map (m : List Byte) :
    updateProgram m = ((updateChunks m).map packed).map fun c => commandEvent (.absorb c.1 c.2) := by
  unfold updateProgram updateChunks
  split
  · rfl
  · rw [List.map_map, List.map_map]
    rfl

theorem packed_count {c : List Byte} (hc : c.length ≤ 8) : (packed c).1.toNat = c.length :=
  Nat.mod_eq_of_lt (by omega)

theorem dataBytes_packed {c : List Byte} (hc : c.length ≤ 8) : dataBytes (packed c).1.toNat (packed c).2 = c := by
  rw [packed_count hc]
  exact dataBytes_dataWord c hc

theorem count_le_of_mem_packed {m : List Byte} {c : BitVec 4 × Lane} (h : c ∈ (updateChunks m).map packed) :
    c.1.toNat ≤ 8 := by
  obtain ⟨x, hx, rfl⟩ := List.mem_map.mp h
  have hlen := length_le_of_mem_updateChunks hx
  rwa [packed_count hlen]

/-- The ABSORBs of UPDATE carry exactly the bytes of the string, in order. -/
theorem flatMap_dataBytes_packed (m : List Byte) :
    ((updateChunks m).map packed).flatMap (fun c => dataBytes c.1.toNat c.2) = m := by
  have hmap : (updateChunks m).map ((fun c => dataBytes c.1.toNat c.2) ∘ packed) = updateChunks m :=
    (List.map_congr_left fun _ hc => dataBytes_packed (length_le_of_mem_updateChunks hc)).trans (List.map_id _)
  rw [List.flatMap_def, List.map_map, hmap, updateChunks_flatten]

/-! ### Runs of ABSORBs -/

/-- An engine that has absorbed `bs` and answered OK, with `rest` still to come from the host. -/
def absorbed (bs : List Byte) (rest : List HostEvent) (s : State) : State :=
  { absorbBytes bs s with response := some ⟨.ok, 0⟩, host := rest }

theorem absorbed_phase (bs : List Byte) (rest : List HostEvent) (s : State) : (absorbed bs rest s).phase = s.phase :=
  absorbBytes_phase bs s

theorem absorbed_absorbed (xs ys : List Byte) (h rest : List HostEvent) (s : State) :
    absorbed ys rest (absorbed xs h s) = absorbed (xs ++ ys) rest s := by
  simp only [absorbed, absorbBytes_ports, absorbBytes_append]

theorem exec_absorb_eq_absorbed (n : BitVec 4) (data : Lane) (s : State) (rest : List HostEvent) (hn : n.toNat ≤ 8)
    (hp : s.phase = .absorbing) :
    exec (.absorb n data) { s with host := rest } = .next (absorbed (dataBytes n.toNat data) rest s) := by
  rw [exec_absorb n data { s with host := rest } hn hp, absorbBytes_ports _ s s.response rest]
  rfl

/-- One ABSORB at the head of the host's events, while Absorbing. -/
theorem runResponses_absorb (k : Nat) (c : BitVec 4 × Lane) (s : State) (rest : List HostEvent) (hn : c.1.toNat ≤ 8)
    (hp : s.phase = .absorbing) :
    runResponses (k + 1) { s with host := commandEvent (.absorb c.1 c.2) :: rest } =
      (runResponses k (absorbed (dataBytes c.1.toNat c.2) rest s)).map fun x => (⟨.ok, 0⟩ :: x.1, x.2) :=
  runResponses_command k _ s _ ⟨.ok, 0⟩ rest (decode_encode _ (decide_eq_true hn))
    (exec_absorb_eq_absorbed c.1 c.2 s rest hn hp) rfl

/-- A nonempty list of ABSORBs is answered OK throughout and absorbs the concatenation of their bytes (R76). -/
theorem runResponses_absorbs (cs : List (BitVec 4 × Lane)) (hne : cs ≠ []) (s : State) (rest : List HostEvent)
    (hn : ∀ c ∈ cs, c.1.toNat ≤ 8) (hp : s.phase = .absorbing) :
    runResponses cs.length { s with host := (cs.map fun c => commandEvent (.absorb c.1 c.2)) ++ rest } =
      some (List.replicate cs.length ⟨.ok, 0⟩, absorbed (cs.flatMap fun c => dataBytes c.1.toNat c.2) rest s) := by
  induction cs generalizing s with
  | nil => exact absurd rfl hne
  | cons c cs ih =>
    have hhead := fun k rest => runResponses_absorb k c s rest (hn c List.mem_cons_self) hp
    rcases eq_or_ne cs [] with rfl | hcs
    · simpa [runResponses_zero] using hhead 0 rest
    · have htail := ih hcs (absorbed (dataBytes c.1.toNat c.2) rest s) (fun x hx => hn x (List.mem_cons_of_mem c hx))
        ((absorbed_phase _ _ _).trans hp)
      rw [absorbed_absorbed] at htail
      exact (hhead cs.length _).trans (congrArg (Option.map _) htail)

theorem runResponses_updateProgram (m : List Byte) (s : State) (rest : List HostEvent) (hp : s.phase = .absorbing) :
    runResponses (updateProgram m).length { s with host := updateProgram m ++ rest } =
      some (List.replicate (updateProgram m).length ⟨.ok, 0⟩, absorbed m rest s) := by
  have hrun := runResponses_absorbs ((updateChunks m).map packed) (by simpa using updateChunks_ne_nil m) s rest
    (fun _ => count_le_of_mem_packed) hp
  rw [flatMap_dataBytes_packed, ← updateProgram_eq_map] at hrun
  rwa [show (updateProgram m).length = ((updateChunks m).map packed).length by rw [updateProgram_eq_map, List.length_map]]

end Sys2Proof.Machine

namespace Sys2Proof

open Machine

/-- Settles O45: UPDATE is a nonempty list of ABSORBs, and the bytes they carry, concatenated, are the string. -/
theorem updateAbsorbsItsBytes : Obligations.UpdateAbsorbsItsBytes :=
  fun s m rest hp => runResponses_updateProgram m s rest hp

end Sys2Proof
end

section
/-! PROOF of O49: what the assembler accepts is made of well-formed commands, raw words apart (30_encoding.md R51 to R53). -/

namespace Sys2Proof.Machine

/-- Events that are all transactions with a legal word. -/
def LegalCommands (es : List HostEvent) : Prop := ∀ e ∈ es, ∃ cmd data, e = .command cmd data ∧ legal cmd = true

theorem legalCommands_nil : LegalCommands [] := nofun

theorem legalCommands_append {xs ys : List HostEvent} (hx : LegalCommands xs) (hy : LegalCommands ys) :
    LegalCommands (xs ++ ys) :=
  List.forall_mem_append.mpr ⟨hx, hy⟩

theorem legalCommands_map_commandEvent {is : List Instr} (h : ∀ i ∈ is, i.wellFormed = true) :
    LegalCommands (is.map commandEvent) := by
  intro e he
  obtain ⟨i, hi, rfl⟩ := List.mem_map.mp he
  exact ⟨(encode i).1, (encode i).2, rfl, (legal_encode i).trans (h i hi)⟩

theorem legalCommands_singleton {i : Instr} (h : i.wellFormed = true) : LegalCommands [commandEvent i] :=
  legalCommands_map_commandEvent (is := [i]) (by simpa using h)

/-! ### The pseudo-instructions (30_encoding.md R52, R53) -/

theorem legalCommands_updateProgram (m : List Byte) : LegalCommands (updateProgram m) := by
  have hmap : updateProgram m = (((updateChunks m).map packed).map fun c => Instr.absorb c.1 c.2).map commandEvent := by
    rw [updateProgram_eq_map, List.map_map (g := commandEvent)]
    rfl
  rw [hmap]
  refine legalCommands_map_commandEvent fun i hi => ?_
  obtain ⟨c, hc, rfl⟩ := List.mem_map.mp hi
  exact decide_eq_true (count_le_of_mem_packed hc)

theorem legalCommands_digestProgram : LegalCommands digestProgram :=
  legalCommands_map_commandEvent (is := [.finalize, .readDigest 0, .readDigest 1, .readDigest 2, .readDigest 3]) (by decide)

theorem legalCommands_hashProgram (m : List Byte) : LegalCommands (hashProgram m) :=
  legalCommands_append (legalCommands_singleton (i := .reset) rfl)
    (legalCommands_append (legalCommands_updateProgram m) legalCommands_digestProgram)

/-! ### The operands -/

theorem orBadOperand_eq_ok {o : Option (List HostEvent)} {es : List HostEvent} (h : orBadOperand o = .ok es) :
    o = some es := by
  cases o <;> cases h
  rfl

theorem noOperands_eq_some {es es' : List HostEvent} {ops : List (List Char)} (h : noOperands es ops = some es') :
    es' = es := by
  unfold noOperands at h
  split at h <;> cases h
  rfl

theorem numberBelow_lt {bound n : Nat} {w : List Char} (h : numberBelow bound w = some n) : n < bound :=
  of_decide_eq_true (Option.filter_eq_some_iff.mp h).2

theorem absorbOperands_legal {ops : List (List Char)} {es : List HostEvent} (h : absorbOperands ops = some es) :
    LegalCommands es := by
  cases ops with
  | nil => cases h
  | cons n ops =>
    obtain ⟨count, hcount, h⟩ := Option.bind_eq_some_iff.mp h
    obtain ⟨data, -, ⟨⟩⟩ := Option.bind_eq_some_iff.mp h
    have hlt := numberBelow_lt hcount
    exact legalCommands_singleton (decide_eq_true (by rw [BitVec.toNat_ofNat]; omega))

theorem readDigestOperand_legal {ops : List (List Char)} {es : List HostEvent} (h : readDigestOperand ops = some es) :
    LegalCommands es := by
  unfold readDigestOperand at h
  split at h
  · obtain ⟨k, hk, rfl⟩ := Option.map_eq_some_iff.mp h
    have hlt := numberBelow_lt hk
    exact legalCommands_singleton (decide_eq_true (by rw [BitVec.toNat_ofNat]; omega))
  · cases h

theorem noOperands_legal {es es' : List HostEvent} {ops : List (List Char)} (hes : LegalCommands es)
    (h : noOperands es ops = some es') : LegalCommands es' := by
  rwa [noOperands_eq_some h]

theorem bytesOperand_legal {program : List Byte → List HostEvent} (hp : ∀ m, LegalCommands (program m)) {cs : List Char}
    {es : List HostEvent} (h : (bytesOperand cs).map program = some es) : LegalCommands es := by
  obtain ⟨m, -, rfl⟩ := Option.map_eq_some_iff.mp h
  exact hp m

/-! ### A line -/

/-- Whatever a line's mnemonic, what it stands for is legal commands, or the mnemonic is `.word16`: the branches of
`assembleLine` in its order. -/
theorem assembleLine_legal {line : List Char} {es : List HostEvent} (h : assembleLine line = .ok es) :
    LegalCommands es ∨ ['.', 'w', 'o', 'r', 'd', '1', '6'] <+: line.dropWhile isSeparator := by
  dsimp only [assembleLine] at h
  rcases ite_eq_iff.mp h with ⟨-, h⟩ | ⟨-, h⟩
  · rcases ite_eq_iff.mp h with ⟨-, ⟨⟩⟩ | ⟨-, ⟨⟩⟩
    exact .inl legalCommands_nil
  rcases ite_eq_iff.mp h with ⟨-, h⟩ | ⟨-, h⟩
  · exact .inl (noOperands_legal (legalCommands_singleton rfl) (orBadOperand_eq_ok h))
  rcases ite_eq_iff.mp h with ⟨-, h⟩ | ⟨-, h⟩
  · exact .inl (absorbOperands_legal (orBadOperand_eq_ok h))
  rcases ite_eq_iff.mp h with ⟨-, h⟩ | ⟨-, h⟩
  · exact .inl (noOperands_legal (legalCommands_singleton rfl) (orBadOperand_eq_ok h))
  rcases ite_eq_iff.mp h with ⟨-, h⟩ | ⟨-, h⟩
  · exact .inl (readDigestOperand_legal (orBadOperand_eq_ok h))
  rcases ite_eq_iff.mp h with ⟨-, h⟩ | ⟨-, h⟩
  · exact .inl (noOperands_legal (legalCommands_singleton rfl) (orBadOperand_eq_ok h))
  rcases ite_eq_iff.mp h with ⟨hraw, h⟩ | ⟨-, h⟩
  · exact .inr (hraw ▸ List.takeWhile_prefix _)
  rcases ite_eq_iff.mp h with ⟨-, h⟩ | ⟨-, h⟩
  · exact .inl (bytesOperand_legal legalCommands_updateProgram (orBadOperand_eq_ok h))
  rcases ite_eq_iff.mp h with ⟨-, h⟩ | ⟨-, h⟩
  · exact .inl (noOperands_legal legalCommands_digestProgram (orBadOperand_eq_ok h))
  rcases ite_eq_iff.mp h with ⟨-, h⟩ | ⟨-, h⟩
  · exact .inl (bytesOperand_legal legalCommands_hashProgram (orBadOperand_eq_ok h))
  cases h

end Sys2Proof.Machine

namespace Sys2Proof

open Machine

/-- Settles O49: every operand form but the raw word's gives well-formed commands. -/
theorem assembledCommandsAreLegal : Obligations.AssembledCommandsAreLegal := by
  intro line es h
  exact (assembleLine_legal h).imp id fun ⟨tail, ht⟩ => ⟨tail, ht.symm⟩

end Sys2Proof
end

section
/-! PROOF of the closed form (41_sponge_commands.md R77): absorbing a message block by block from a cleared array and
finishing it reaches the array of Keccak256. -/

namespace Sys2Proof.Machine

/-! ### The padded message byte by byte -/

theorem length_xorAt (k : Nat) (b : Byte) (P : List Byte) : (xorAt k b P).length = P.length :=
  List.length_modify _ _ _

theorem getD_xorAt (k j : Nat) (b : Byte) (P : List Byte) (hj : j < P.length) :
    (xorAt k b P).getD j 0 = P.getD j 0 ^^^ (if j = k then b else 0) := by
  simp only [xorAt, List.getD_eq_getElem?_getD, List.getElem?_modify, List.getElem?_eq_getElem hj]
  by_cases h : k = j
  · simp [h]
  · simp [h, Ne.symm h]

theorem getD_append_zeros (m : List Byte) (n j : Nat) : (m ++ List.replicate n 0).getD j 0 = m.getD j 0 := by
  rcases lt_or_ge j m.length with hj | hj
  · rw [List.getD_append _ _ _ _ hj]
  · rw [List.getD_append_right _ _ _ _ hj, List.getD_eq_default _ _ hj]
    simp

/-- The message, DS right after it, and PADEND at the end of the last block (R77). -/
theorem getD_paddedMessage (m : List Byte) (j : Nat) (hj : j < 136 * (m.length / 136 + 1)) :
    (paddedMessage m).getD j 0 = m.getD j 0 ^^^ (if j = m.length then Config.ds else 0) ^^^
      (if j = 136 * (m.length / 136) + 135 then Config.padEnd else 0) := by
  have hlen : j < (m ++ List.replicate (136 - m.length % 136) (0 : Byte)).length := by
    simp only [List.length_append, List.length_replicate]
    omega
  simp only [paddedMessage]
  rw [getD_xorAt _ _ _ _ (by rwa [length_xorAt]), getD_xorAt _ _ _ _ hlen, getD_append_zeros]

/-! ### The blocks -/

theorem getByte_xorBlock (L : Lanes) (P : List Byte) (j : Nat) (k : Fin 200) :
    getByte (xorBlock L P j) k = if k.val < 136 then getByte L k ^^^ P.getD (136 * j + k.val) 0 else getByte L k :=
  getByte_ofBytes _ k

/-- The array after the first n blocks of a padded message, from a cleared array (R77). -/
def absorbedBlocks (P : List Byte) (n : Nat) : Lanes :=
  (List.range n).foldl (fun L j => keccakF (xorBlock L P j)) zeroLanes

theorem absorbedBlocks_succ (P : List Byte) (n : Nat) :
    absorbedBlocks P (n + 1) = keccakF (xorBlock (absorbedBlocks P n) P n) := by
  simp [absorbedBlocks, List.range_succ]

theorem keccak256State_eq (m : List Byte) :
    keccak256State m = absorbedBlocks (paddedMessage m) (m.length / 136 + 1) := rfl

/-- A whole block of the message absorbed at CURSOR 0 is one block XOR and one KeccakF. -/
theorem absorbBytes_block (bs P : List Byte) (n : Nat) (s : State) (hc : s.cursor = 0) (hbs : bs.length = 136)
    (hP : ∀ k < 136, P.getD (136 * n + k) 0 = bs.getD k 0) :
    absorbBytes bs s = { s with lanes := keccakF (xorBlock s.lanes P n) } := by
  obtain ⟨L, hL, hbytes⟩ := absorbBytes_full bs s (by simp [hc, hbs]) (by rintro rfl; simp at hbs)
  have hblock : L = xorBlock s.lanes P n := by
    apply lanes_ext_bytes
    intro k
    rw [hbytes, getByte_xorBlock, hc]
    by_cases hk : k.val < 136
    · rw [if_pos ⟨Nat.zero_le _, hk⟩, if_pos hk, hP k hk]
      rfl
    · rw [if_neg fun h => hk h.2, if_neg hk]
  rw [hL, hblock, ← hc]

/-- The whole blocks of a message, absorbed from a cleared array at CURSOR 0. -/
theorem absorbBytes_take_blocks (m : List Byte) (s : State) (hl : s.lanes = zeroLanes) (hc : s.cursor = 0) (n : Nat)
    (hn : 136 * n ≤ m.length) :
    absorbBytes (m.take (136 * n)) s = { s with lanes := absorbedBlocks (paddedMessage m) n } := by
  induction n with
  | zero => simp [absorbedBlocks, ← hl]
  | succ n ih =>
    have hblock : ((m.drop (136 * n)).take 136).length = 136 := by rw [List.length_take, List.length_drop]; omega
    have hbytes : ∀ k < 136, (paddedMessage m).getD (136 * n + k) 0 = ((m.drop (136 * n)).take 136).getD k 0 := by
      intro k hk
      rw [getD_paddedMessage m _ (by omega), if_neg (by omega), if_neg (by omega)]
      simp [hk]
    rw [Nat.mul_succ, List.take_add, absorbBytes_append, ih (by omega),
      absorbedBlocks_succ]
    exact absorbBytes_block _ (paddedMessage m) n { s with lanes := _ } hc hblock hbytes

/-- Fewer bytes than a block, at CURSOR 0, are XORed in from byte 0 on. -/
theorem getByte_absorbBytes_rest (bs : List Byte) (s : State) (hc : s.cursor = 0) (hbs : bs.length < 136) (k : Fin 200) :
    getByte (absorbBytes bs s).lanes k = getByte s.lanes k ^^^ bs.getD k 0 := by
  rw [absorbBytes_inside bs s (by simpa [hc] using hbs), hc]
  by_cases hk : k.val < bs.length
  · rw [if_pos (by simpa using hk)]
    rfl
  · rw [if_neg (by simpa using hk), List.getD_eq_default _ _ (by omega)]
    exact (BitVec.xor_zero).symm

/-- The rest of the message and the padding, at CURSOR 0, make the last block of the padded message (R72). -/
theorem pad_absorbBytes_rest (m : List Byte) (s : State) (hc : s.cursor = 0) :
    (pad (absorbBytes (m.drop (136 * (m.length / 136))) s)).lanes = xorBlock s.lanes (paddedMessage m) (m.length / 136) := by
  have hlen : (m.drop (136 * (m.length / 136))).length = m.length % 136 := by rw [List.length_drop]; omega
  have hcur : (absorbBytes (m.drop (136 * (m.length / 136))) s).cursor.val = m.length % 136 := by
    rw [absorbBytes_cursor, hlen, hc]
    exact (congrArg (· % 136) (Nat.zero_add _)).trans (Nat.mod_mod _ _)
  apply lanes_ext_bytes
  intro k
  have hrest : (m.drop (136 * (m.length / 136))).getD k.val 0 = m.getD (136 * (m.length / 136) + k.val) 0 := by
    simp
  rw [getByte_pad, getByte_xorBlock, hcur, getByte_absorbBytes_rest _ s hc (by omega), hrest]
  by_cases hk : k.val < 136
  · have hds : 136 * (m.length / 136) + k.val = m.length ↔ k.val = m.length % 136 := by omega
    rw [if_pos hk, getD_paddedMessage m _ (by omega)]
    simp only [hds, Nat.add_left_cancel_iff]
    by_cases hpad : k.val = m.length % 136 <;> simp [hpad, BitVec.xor_assoc]
  · rw [if_neg hk, if_neg (by omega), if_neg (by omega), List.getD_eq_default _ _ (by omega)]
    simp

/-- Absorbing m from a cleared array and finishing the message gives the array of Keccak256(m) (R77). -/
theorem finishMessage_absorbBytes (m : List Byte) (s : State) (hl : s.lanes = zeroLanes) (hc : s.cursor = 0) :
    (finishMessage (absorbBytes m s)).lanes = keccak256State m := by
  have hsplit : absorbBytes m s = absorbBytes (m.drop (136 * (m.length / 136)))
      { s with lanes := absorbedBlocks (paddedMessage m) (m.length / 136) } := by
    rw [← absorbBytes_take_blocks m s hl hc _ (by omega), ← absorbBytes_append, List.take_append_drop]
  rw [finishMessage_lanes, hsplit, keccak256State_eq, absorbedBlocks_succ]
  exact congrArg keccakF (pad_absorbBytes_rest m { s with lanes := _ } hc)

end Sys2Proof.Machine
end

section
/-! PROOF of O48: HASH, command by command: RESET, UPDATE, FINALIZE, four READ_DIGESTs (30_encoding.md R53). -/

namespace Sys2Proof.Machine

/-- `L[0..3]`, what READ_DIGEST 0 to 3 return (41_sponge_commands.md R74). -/
def digestLanes (L : Lanes) : List Lane := ([0, 1, 2, 3] : List (BitVec 4)).map (digestWord L)

/-- The four digest lanes, low byte first, are the digest (20_memory.md R32). -/
theorem wordsToBytes_digestLanes (L : Lanes) : wordsToBytes (digestLanes L) = digestBytes L := rfl

/-! ### One command at the head of the host's events -/

/-- The engine as RESET leaves it, with `rest` still to come from the host. -/
def cleared (rest : List HostEvent) (s : State) : State := respond 0 (clearEngine { s with host := rest })

theorem runResponses_reset (k : Nat) (s : State) (rest : List HostEvent) :
    runResponses (k + 1) { s with host := commandEvent .reset :: rest } =
      (runResponses k (cleared rest s)).map fun x => (⟨.ok, 0⟩ :: x.1, x.2) :=
  runResponses_command k .reset s _ ⟨.ok, 0⟩ rest (decode_encode _ rfl) rfl rfl

theorem runResponses_finalize (k : Nat) (s : State) (rest : List HostEvent) (hp : s.phase = .absorbing) :
    runResponses (k + 1) { s with host := commandEvent .finalize :: rest } =
      (runResponses k (respond 0 (finishMessage { s with host := rest }))).map fun x => (⟨.ok, 0⟩ :: x.1, x.2) :=
  runResponses_command k .finalize s _ ⟨.ok, 0⟩ rest (decode_encode _ rfl) (exec_finalize { s with host := rest } hp) rfl

theorem runResponses_readDigest (k : Nat) (w : BitVec 4) (s : State) (rest : List HostEvent) (hw : w.toNat ≤ 3)
    (hp : s.phase = .finalized) :
    runResponses (k + 1) { s with host := commandEvent (.readDigest w) :: rest } =
      (runResponses k (respond (digestWord s.lanes w) { s with host := rest })).map
        fun x => (⟨.ok, digestWord s.lanes w⟩ :: x.1, x.2) :=
  runResponses_command k _ s _ ⟨.ok, digestWord s.lanes w⟩ rest (decode_encode _ (decide_eq_true hw))
    (exec_readDigest w { s with host := rest } hw hp) rfl

/-! ### The programs -/

/-- READ_DIGESTs while Finalized return their lanes in order and change the response port alone. -/
theorem runResponses_readDigests (ws : List (BitVec 4)) (s : State) (rest : List HostEvent) (hw : ∀ w ∈ ws, w.toNat ≤ 3)
    (hp : s.phase = .finalized) :
    ∃ r, runResponses ws.length { s with host := (ws.map fun w => commandEvent (.readDigest w)) ++ rest } =
      some ((ws.map (digestWord s.lanes)).map (⟨.ok, ·⟩), { s with response := r, host := rest }) := by
  induction ws generalizing s with
  | nil => exact ⟨s.response, rfl⟩
  | cons w ws ih =>
    obtain ⟨r, hrun⟩ := ih (respond (digestWord s.lanes w) s) (fun v hv => hw v (List.mem_cons_of_mem w hv)) hp
    exact ⟨r, (runResponses_readDigest ws.length w s _ (hw w List.mem_cons_self) hp).trans (congrArg (Option.map _) hrun)⟩

/-- DIGEST on an Absorbing engine finishes the message and returns its digest lanes. -/
theorem runResponses_digestProgram (s : State) (rest : List HostEvent) (hp : s.phase = .absorbing) :
    ∃ r, runResponses digestProgram.length { s with host := digestProgram ++ rest } =
      some (⟨.ok, 0⟩ :: (digestLanes (finishMessage s).lanes).map (⟨.ok, ·⟩),
        { finishMessage s with response := r, host := rest }) := by
  obtain ⟨r, hrun⟩ := runResponses_readDigests [0, 1, 2, 3] (respond 0 (finishMessage s)) rest (by decide) rfl
  exact ⟨r, (runResponses_finalize 4 s _ hp).trans (congrArg (Option.map _) hrun)⟩

/-- HASH in any state: every command is answered OK, and the last four return the digest lanes of the finished message. -/
theorem runResponses_hashProgram (m : List Byte) (s : State) (rest : List HostEvent) :
    ∃ r a, a = absorbed m (digestProgram ++ rest) (cleared (updateProgram m ++ (digestProgram ++ rest)) s) ∧
      runResponses (hashProgram m).length { s with host := hashProgram m ++ rest } =
        some (⟨.ok, 0⟩ :: (List.replicate (updateProgram m).length ⟨.ok, 0⟩ ++
            ⟨.ok, 0⟩ :: (digestLanes (finishMessage a).lanes).map (⟨.ok, ·⟩)),
          { finishMessage a with response := r, host := rest }) := by
  have hupdate := runResponses_updateProgram m (cleared (updateProgram m ++ (digestProgram ++ rest)) s)
    (digestProgram ++ rest) rfl
  obtain ⟨r, hdigest⟩ := runResponses_digestProgram
    (absorbed m (digestProgram ++ rest) (cleared (updateProgram m ++ (digestProgram ++ rest)) s)) rest
    (absorbed_phase _ _ _)
  have hbody := (runResponses_add _ digestProgram.length _ _ _ hupdate).trans (congrArg (Option.map _) hdigest)
  have hlen : (hashProgram m).length = (updateProgram m).length + digestProgram.length + 1 := by simp [hashProgram]
  have hhost : hashProgram m ++ rest = commandEvent .reset :: (updateProgram m ++ (digestProgram ++ rest)) := by
    simp [hashProgram]
  rw [hlen, hhost]
  exact ⟨r, _, rfl, (runResponses_reset _ s _).trans (congrArg (Option.map _) hbody)⟩

end Sys2Proof.Machine

namespace Sys2Proof

open Machine

/-- Settles O48: RESET clears the engine, UPDATE absorbs m, and the finished array is the one of the closed form. -/
theorem hashProgramReturnsKeccak256 : Obligations.HashProgramReturnsKeccak256 := by
  intro s m rest
  obtain ⟨r, a, ha, hrun⟩ := runResponses_hashProgram m s rest
  have hlanes : (finishMessage a).lanes = keccak256State m := by
    rw [ha]
    exact finishMessage_absorbBytes m (cleared _ s) rfl rfl
  refine ⟨⟨.ok, 0⟩ :: (List.replicate (updateProgram m).length ⟨.ok, 0⟩ ++ [⟨.ok, 0⟩]),
    digestLanes (finishMessage a).lanes, _, by simpa using hrun, ?_, rfl, ?_, rfl, rfl, rfl, ?_, ?_⟩
  · intro r hr
    rcases List.mem_cons.mp hr with rfl | hr
    · rfl
    · rcases List.mem_append.mp hr with hr | hr
      · exact List.eq_of_mem_replicate hr
      · exact List.mem_singleton.mp hr
  · rw [wordsToBytes_digestLanes, hlanes, keccak256]
  · rw [ha]; simp [absorbed, cleared]
  · rw [ha]; simp [absorbed, cleared]

end Sys2Proof
end

section
/-! PROOF of O36 to O42 and O52: the step mappings of the Permutation Core lane by lane, its tables, and the 24 rounds
(40_permutation.md R54 to R66). -/

namespace Sys2Proof.Machine

/-! ### ROTL64 (R54) -/

/-- The model's case for rotation by 0 agrees with the library's rotation, which shifts by the width there. -/
theorem rotl64_eq_rotateLeft (v : Lane) (n : Nat) (hn : n < 64) : rotl64 v n = v.rotateLeft n := by
  rw [BitVec.rotateLeft_def, Nat.mod_eq_of_lt hn, rotl64]
  split
  · next h => simp [h, BitVec.ushiftRight_eq_zero]
  · rfl

/-- The low n bits come from the top of the lane, the others from n places below. -/
theorem getLsbD_rotl64 (v : Lane) (n z : Nat) (hn : n < 64) (hz : z < 64) :
    (rotl64 v n).getLsbD z = v.getLsbD ((z + 64 - n) % 64) := by
  rw [rotl64_eq_rotateLeft v n hn, BitVec.getLsbD_rotateLeft, Nat.mod_eq_of_lt hn, Bool.cond_decide]
  split
  · congr 1; omega
  · have hsource : z - n = (z + 64 - n) % 64 := by omega
    simp [hz, hsource]

theorem rotl64_xor (v w : Lane) (n : Nat) (hn : n < 64) : rotl64 (v ^^^ w) n = rotl64 v n ^^^ rotl64 w n := by
  apply BitVec.eq_of_getLsbD_eq
  intro z hz
  simp only [BitVec.getLsbD_xor, getLsbD_rotl64 _ n z hn hz]

/-! ### Theta (R55) -/

section
variable {A B C : Lanes} (h : ∀ x y, laneAt C x y = laneAt A x y ^^^ laneAt B x y)
include h

theorem columnParity_xor (x : Fin 5) : columnParity C x = columnParity A x ^^^ columnParity B x := by
  simp only [columnParity, h]
  ac_rfl

theorem thetaEffect_xor (x : Fin 5) : thetaEffect C x = thetaEffect A x ^^^ thetaEffect B x := by
  simp only [thetaEffect, columnParity_xor h, rotl64_xor _ _ 1 (by norm_num)]
  ac_rfl

theorem laneAt_theta_xor (x y : Fin 5) : laneAt (theta C) x y = laneAt (theta A) x y ^^^ laneAt (theta B) x y := by
  simp only [laneAt_theta, h, thetaEffect_xor h]
  ac_rfl

end

/-! ### Rho and pi (R56 to R58) -/

/-- Lane i stands at column i mod 5 and row i div 5 (10_state.md R14). -/
theorem exists_coordinates (i : Fin 25) : ∃ x y : Fin 5, i = ⟨x.val + 5 * y.val, by omega⟩ :=
  ⟨⟨i.val % 5, by omega⟩, ⟨i.val / 5, by omega⟩, Fin.ext (Nat.mod_add_div i.val 5).symm⟩

theorem getElem_rho (A : Lanes) (i : Fin 25) : (rho A)[i] = rotl64 A[i] rhoOffsets[i] := by
  obtain ⟨x, y, rfl⟩ := exists_coordinates i
  exact laneAt_rho A x y

/-- The move of a lane undoes the choice of its source: pi by source and pi by target are one permutation. -/
theorem laneAt_piStep_target (A : Lanes) (x y : Fin 5) : laneAt (piStep A) y (2 * x + 3 * y) = laneAt A x y := by
  have hsource : ∀ x y : Fin 5, y + 3 * (2 * x + 3 * y) = x := by decide
  rw [laneAt_piStep, hsource]

/-! ### Chi (R59) -/

theorem laneAt_chi_zero_row {A : Lanes} {y : Fin 5} (h : ∀ x, laneAt A x y = 0) (x : Fin 5) :
    laneAt (chi A) x y = 0 := by
  rw [laneAt_chi, h, h, h]
  rfl

/-- Only the lane whose second neighbour to the right is the all-ones lane changes: it becomes all-ones too. -/
theorem laneAt_chi_ones_lane {A : Lanes} {x y : Fin 5}
    (h : ∀ x', laneAt A x' y = if x' = x then BitVec.allOnes 64 else 0) (x' : Fin 5) :
    laneAt (chi A) x' y = if x' = x ∨ x' = x + 3 then BitVec.allOnes 64 else 0 := by
  have hreach : ∀ a b : Fin 5, a = b + 3 ↔ a + 2 = b := by decide
  have hdistinct : ∀ a : Fin 5, a ≠ a + 2 ∧ a + 1 ≠ a + 2 := by decide
  obtain ⟨hself, hnext⟩ := hdistinct x'
  simp only [laneAt_chi, h, hreach x' x]
  by_cases hx2 : x' + 2 = x
  · subst hx2
    simp [hself, hnext]
  · simp [hx2]

/-! ### The generators of the tables (R66) -/

/-- The rotation offsets. -/
theorem rhoWalk_eq_rhoOffsets : rhoWalk 24 0 1 0 (Vector.replicate 25 0) = rhoOffsets := by decide +kernel

/-- The round constants. -/
theorem roundConstant_eq_generatedConstant : ∀ i : Fin 24, roundConstant i = generatedConstant i.val := by
  decide +kernel

/-! ### The rounds (R62, R63) -/

/-- The array after the rounds of index below n. -/
def afterRounds (A : Lanes) (n : Nat) : Lanes := ((List.finRange 24).take n).foldl keccakRound A

theorem afterRounds_succ (A : Lanes) (i : Fin 24) :
    afterRounds A (i.val + 1) = keccakRound (afterRounds A i.val) i := by
  have hi : (List.finRange 24)[i.val]? = some i := by simp
  rw [afterRounds, List.take_add_one, hi, List.foldl_append]
  rfl

theorem keccakF_eq_afterRounds (A : Lanes) : keccakF A = afterRounds A 24 := by
  unfold keccakF
  rfl

/-- The example of R62. -/
theorem keccakRound_zero :
    keccakRound (Vector.replicate 25 0) 0 = (Vector.replicate 25 0).set 0 0x0000000000000001 := by decide +kernel

/-- The example of R63. -/
theorem keccakF_zero_lane : (keccakF (Vector.replicate 25 0))[0] = 0xF1258F7940E1DDE7 := by decide +kernel

end Sys2Proof.Machine

namespace Sys2Proof

open Machine

/-- Settles O36: ROTL64 is the library's rotation, read bit by bit. -/
theorem rotationMovesEveryBit : Obligations.RotationMovesEveryBit :=
  fun v n z hn hz => ⟨rotl64_zero v, getLsbD_rotl64 v n z hn hz⟩

/-- Settles O37: theta XORs column parities and a rotation, each of them linear over XOR. -/
theorem thetaMixesColumnParities : Obligations.ThetaMixesColumnParities :=
  ⟨fun A x y => (laneAt_theta A x y).trans (BitVec.xor_assoc _ _ _).symm, fun _ _ _ h => laneAt_theta_xor h⟩

/-- Settles O38, through the coordinates of each lane index. -/
theorem rhoRotatesByTheTable : Obligations.RhoRotatesByTheTable :=
  ⟨rhoOffsets, rfl, by decide, by decide, getElem_rho⟩

/-- Settles O39; the list of sources is pi's grid read row by row. -/
theorem piMovesEveryLane : Obligations.PiMovesEveryLane :=
  fun A => ⟨laneAt_piStep A, laneAt_piStep_target A, rfl⟩

/-- Settles O40: the formula lane by lane, and its two corner cases. -/
theorem chiMixesEachRow : Obligations.ChiMixesEachRow :=
  fun A => ⟨laneAt_chi A, fun _ => laneAt_chi_zero_row, fun _ _ => laneAt_chi_ones_lane⟩

/-- Settles O41: iota is one write to lane 0. -/
theorem iotaChangesLaneZeroAlone : Obligations.IotaChangesLaneZeroAlone := by
  refine ⟨roundConstant, by decide, fun A i => ⟨getElem_iota A i 0 (by norm_num), fun j hj => ?_⟩⟩
  exact (getElem_iota A i j.val j.isLt).trans (if_neg (Fin.val_ne_of_ne hj))

/-- Settles O42: both generators, run in the kernel. -/
theorem tablesMatchTheirGenerators : Obligations.TablesMatchTheirGenerators :=
  ⟨rhoWalk_eq_rhoOffsets, roundConstant_eq_generatedConstant⟩

/-- Settles O52: array i of the chain is the array after the first i rounds. -/
theorem keccakFIsTwentyFourRounds : Obligations.KeccakFIsTwentyFourRounds :=
  ⟨fun _ _ => rfl, fun A => ⟨afterRounds A, rfl, afterRounds_succ A, keccakF_eq_afterRounds A⟩, keccakRound_zero,
    keccakF_zero_lane⟩

end Sys2Proof
end

section
/-! PROOF of O13, O15 and O16: AbsorbByte and ABSORB byte by byte, inside the block and across its end
(41_sponge_commands.md R69, R71, 20_memory.md R35). -/

namespace Sys2Proof.Machine

/-- Bytes that fill the block and go on: the first ones complete it, one permutation runs, and the others go in from byte
0 of the permuted array. -/
theorem absorbBytes_across (bs : List Byte) (s : State) (hfull : 136 ≤ s.cursor.val + bs.length)
    (hone : s.cursor.val + bs.length < 272) :
    ∃ L : Lanes,
      (∀ k, getByte L k = if s.cursor.val ≤ k.val ∧ k.val < 136
        then getByte s.lanes k ^^^ bs.getD (k.val - s.cursor.val) 0 else getByte s.lanes k) ∧
      ∀ k, getByte (absorbBytes bs s).lanes k = if k.val < s.cursor.val + bs.length - 136
        then getByte (keccakF L) k ^^^ bs.getD (136 - s.cursor.val + k.val) 0 else getByte (keccakF L) k := by
  have hcursor := s.cursor.isLt
  have htake : s.cursor.val + (bs.take (136 - s.cursor.val)).length = 136 := by rw [List.length_take]; omega
  obtain ⟨L, hL, hbytes⟩ := absorbBytes_full (bs.take (136 - s.cursor.val)) s htake (by
    intro hnil
    rw [hnil, List.length_nil] at htake
    omega)
  have hsplit : absorbBytes bs s =
      absorbBytes (bs.drop (136 - s.cursor.val)) { s with lanes := keccakF L, cursor := 0 } := by
    rw [← hL, ← absorbBytes_append, List.take_append_drop]
  refine ⟨L, fun k => ?_, fun k => ?_⟩
  · rw [hbytes]
    refine ite_congr rfl (fun hk => ?_) fun _ => rfl
    have hlt : k.val - s.cursor.val < 136 - s.cursor.val := by omega
    simp only [List.getD_eq_getElem?_getD, List.getElem?_take_of_lt hlt]
  · rw [hsplit, absorbBytes_inside _ _ (by simp; omega)]
    refine ite_congr (propext ?_) (fun _ => ?_) fun _ => rfl
    · simp only [List.length_drop, Fin.val_zero]
      omega
    · simp

/-- The bytes of an `if` over a window of S may be read from DATA itself where the window lies in it. -/
theorem ite_xor_dataBytes {p : Prop} [Decidable p] (b : Byte) (n j : Nat) (data : Lane) (h : p → j < n) :
    (if p then b ^^^ (dataBytes n data).getD j 0 else b) = if p then b ^^^ byteOf data j else b :=
  ite_congr rfl (fun hp => by rw [dataBytes_getD n data j (h hp)]) fun _ => rfl

end Sys2Proof.Machine

namespace Sys2Proof

open Machine

/-- Settles O13: the byte goes in at CURSOR by one XOR; the two branches of AbsorbByte differ by the permutation. -/
theorem absorbByteFollowsTheCursor : Obligations.AbsorbByteFollowsTheCursor := by
  intro b s
  refine ⟨xorByte s.lanes (rateIndex s.cursor) b, fun k => ?_, fun h => absorbByte_full b s (by omega), absorbByte_inside b s⟩
  simp only [getByte_xorByte, rateIndex, Fin.ext_iff]

/-- Settles O15: bytes that stay inside the block are XORed in at CURSOR and up, and they are bytes 0 to n-1 of DATA. -/
theorem absorbInsideTheBlock : Obligations.AbsorbInsideTheBlock := by
  intro n data s hn hp hin
  refine ⟨_, exec_absorb n data s hn hp, fun k => ?_, ?_, by simp, by simp, by simp, by simp, rfl⟩
  · rw [respond_lanes, absorbBytes_inside _ s (by rwa [dataBytes_length]), dataBytes_length,
      ite_xor_dataBytes _ _ _ _ (by omega)]
  · rw [respond_cursor, absorbBytes_cursor, dataBytes_length, Nat.mod_eq_of_lt hin]

/-- Settles O16: at most 8 bytes fill the block once, so DATA splits into the bytes that complete it and the ones after. -/
theorem absorbAcrossTheBlockBoundary : Obligations.AbsorbAcrossTheBlockBoundary := by
  intro n data s hn hp hfull
  have hcursor := s.cursor.isLt
  obtain ⟨L, hL, hrest⟩ := absorbBytes_across (dataBytes n.toNat data) s (by rwa [dataBytes_length])
    (by rw [dataBytes_length]; omega)
  refine ⟨L, _, exec_absorb n data s hn hp, fun k => ?_, fun k => ?_, ?_, by simp, by simp, by simp, by simp, rfl⟩
  · rw [hL, ite_xor_dataBytes _ _ _ _ (by omega)]
  · rw [respond_lanes, hrest, dataBytes_length, ite_xor_dataBytes _ _ _ _ (by omega)]
  · rw [respond_cursor, absorbBytes_cursor, dataBytes_length]
    omega

end Sys2Proof
end

section
/-! PROOF of O6, O14, O17, O18, O19, O26 and O33: the answers of the commands, and what makes a digest readable
(41_sponge_commands.md R68 to R75, R80). -/

namespace Sys2Proof.Machine

variable {s t : State}

theorem Phase.absorbing_or_finalized (p : Phase) : p = .absorbing ∨ p = .finalized := by
  cases p <;> simp

/-! ### FINALIZE -/

/-- The two pads at byte 135 are one XOR with 0x81 when CURSOR is there (R72). -/
theorem getByte_pad_cases (s : State) (k : Fin 200) :
    getByte (pad s).lanes k =
      if k.val = 135 then (if s.cursor.val = 135 then getByte s.lanes k ^^^ 0x81 else getByte s.lanes k ^^^ 0x80)
      else if k.val = s.cursor.val then getByte s.lanes k ^^^ 0x01 else getByte s.lanes k := by
  rw [getByte_pad]
  by_cases hk : k.val = 135
  · by_cases hc : s.cursor.val = 135
    · simp [hk, hc, Config.ds, Config.padEnd, BitVec.xor_assoc]
    · simp [hk, hc, Ne.symm hc, Config.padEnd]
  · simp [hk, Config.ds]

/-! ### The readout -/

/-- The lane indices that READ_DIGEST admits. -/
theorem toNat_le_three_iff (w : BitVec 4) : w.toNat ≤ 3 ↔ ∃ v : Fin 4, w = BitVec.ofNat 4 v.val := by
  revert w; decide

theorem digestWord_ofNat (L : Lanes) (w : Fin 4) : digestWord L (BitVec.ofNat 4 w.val) = L[w.val] := by
  fin_cases w <;> rfl

/-- A field of STATUS stands at the same place in RDATA. -/
theorem extractLsb'_status (x : BitVec 16) (start len : Nat) :
    (x.setWidth 64).extractLsb' start len = x.extractLsb' start len := rfl

/-- STATUS has 16 bits; RDATA is zero above them. -/
theorem extractLsb'_above_status (x : BitVec 16) (len : Nat) : x.extractLsb' 16 len = 0 := by
  apply BitVec.eq_of_getLsbD_eq
  intro z hz
  simp

theorem phase_code_eq (p : Phase) : p.code = if p = .absorbing then 0 else 2 := by
  cases p <;> rfl

theorem dvalid_eq (s : State) : dvalid s = decide (s.phase = .finalized) := by
  unfold dvalid
  cases s.phase <;> rfl

/-! ### Every command -/

/-- Every command in every state is answered (R68). -/
theorem exec_answers (i : Instr) (s : State) : ∃ t, exec i s = .next t := by
  have hphase := s.phase.absorbing_or_finalized
  cases i with
  | reset => exact ⟨_, exec_reset s⟩
  | absorb n data =>
    by_cases hn : n.toNat ≤ 8
    · exact hphase.elim (fun hp => ⟨_, exec_absorb n data s hn hp⟩) fun hp => ⟨_, exec_absorb_finalized n data s hn hp⟩
    · exact ⟨_, exec_absorb_illegal n data s hn⟩
  | finalize => exact hphase.elim (fun hp => ⟨_, exec_finalize s hp⟩) fun hp => ⟨_, exec_finalize_finalized s hp⟩
  | readDigest w =>
    by_cases hw : w.toNat ≤ 3
    · exact hphase.elim (fun hp => ⟨_, exec_readDigest_absorbing w s hw hp⟩) fun hp => ⟨_, exec_readDigest w s hw hp⟩
    · exact ⟨_, exec_readDigest_illegal w s hw⟩
  | readStatus => exact ⟨_, exec_readStatus s⟩

theorem exec_makes_digest {i : Instr} (he : exec i s = .next t) (ha : s.phase = .absorbing) (hf : t.phase = .finalized) :
    i = .finalize := by
  rcases exec_cases i s t he with ⟨c, -, rfl⟩ | ⟨-, rfl⟩ | ⟨n, data, -, -, -, rfl⟩ | ⟨hi, -, -⟩ | ⟨w, -, -, hp, -⟩ | ⟨-, rfl⟩
  · simp [ha] at hf
  · simp at hf
  · simp [ha] at hf
  · exact hi
  · simp [ha] at hp
  · simp [ha] at hf

end Sys2Proof.Machine

namespace Sys2Proof

open Machine

/-- Settles O6, by the equations of `step` and of a transaction. -/
theorem stepRunsTheDecodedCommand : Obligations.StepRunsTheDecodedCommand := by
  intro s cmd data rest i hh hd
  rw [step_command s cmd data rest hh, transact_ok cmd data i _ hd]

/-- Settles O14: the bytes that ABSORB takes are bytes 0 to n-1 of DATA in order. -/
theorem absorbPerformsItsAbsorbBytes : Obligations.AbsorbPerformsItsAbsorbBytes := by
  intro n data s hn
  refine ⟨fun hp => ?_, exec_absorb_finalized n data s hn⟩
  rw [exec_absorb n data s hn hp, absorbBytes, dataBytes, List.foldl_map]
  rfl

/-- Settles O17: the padded array byte by byte, and FINALIZE in each phase. -/
theorem finalizePadsAndPermutesOnce : Obligations.FinalizePadsAndPermutesOnce :=
  fun s => ⟨fun hp => ⟨(pad s).lanes, getByte_pad_cases s, exec_finalize s hp⟩, exec_finalize_finalized s⟩

/-- Settles O18: READ_DIGEST in each phase, and byte j of a lane. -/
theorem readDigestReturnsTheLane : Obligations.ReadDigestReturnsTheLane := by
  intro w s
  have hw : (BitVec.ofNat 4 w.val).toNat ≤ 3 := (toNat_le_three_iff _).mpr ⟨w, rfl⟩
  refine ⟨fun hp => ?_, fun j => ?_, exec_readDigest_absorbing _ s hw⟩
  · rw [exec_readDigest _ s hw hp, digestWord_ofNat]
    rfl
  · exact (getByte_lane s.lanes ⟨w.val, by omega⟩ j.val j.isLt).symm

/-- Settles O19, field by field. -/
theorem readStatusReturnsTheLayout : Obligations.ReadStatusReturnsTheLayout := by
  intro s
  refine ⟨(statusWord s).setWidth 64, exec_readStatus s, ?_, ?_, ?_, ?_, ?_, ?_, ?_⟩
  · rw [extractLsb'_status _ 0 2, statusWord_phase, phase_code_eq]
  · rw [BitVec.getLsbD_setWidth, statusWord_dvalid, dvalid_eq]
    rfl
  · rw [BitVec.getLsbD_setWidth, statusWord_err]
    rfl
  · rw [extractLsb'_status _ 4 2, statusWord_ecode]
    cases s.ecode <;> rfl
  · rw [extractLsb'_status _ 6 2, statusWord_reserved]
  · rw [extractLsb'_status _ 8 8, statusWord_cursor, BitVec.toNat_ofNat, Nat.mod_eq_of_lt (by omega)]
  · rw [extractLsb'_status, extractLsb'_above_status]

/-- Settles O26: an idle step, a hardware reset and a rejection leave no Absorbing engine Finalized, nor does any command
but FINALIZE. -/
theorem onlyFinalizeMakesADigest : Obligations.OnlyFinalizeMakesADigest := by
  intro s t hs ha hf
  rcases step_cases s t hs with ⟨-, rfl⟩ | ⟨rest, -, rfl⟩ | ⟨cmd, data, rest, e, -, -, rfl⟩ | ⟨cmd, data, rest, i, hh, hd, he⟩
  · simp [ha] at hf
  · simp at hf
  · simp [ha] at hf
  · obtain rfl := exec_makes_digest he ha hf
    obtain rfl := cmd_eq_of_decode_ok hd
    exact ⟨data, rest, hh⟩

/-- Settles O33, by the six answers of a command. -/
theorem outputsAreStatusOrDigestLanes : Obligations.OutputsAreStatusOrDigestLanes := by
  intro i s
  obtain ⟨t, he⟩ := exec_answers i s
  rcases exec_cases i s t he with ⟨c, -, rfl⟩ | ⟨-, rfl⟩ | ⟨n, data, -, -, -, rfl⟩ | ⟨-, -, rfl⟩ | ⟨w, rfl, hw, hp, rfl⟩ |
    ⟨rfl, rfl⟩
  · exact ⟨_, _, he, rfl, .inl rfl⟩
  · exact ⟨_, _, he, rfl, .inl rfl⟩
  · exact ⟨_, _, he, rfl, .inl rfl⟩
  · exact ⟨_, _, he, rfl, .inl rfl⟩
  · obtain ⟨v, rfl⟩ := (toNat_le_three_iff w).mp hw
    exact ⟨_, _, he, rfl, .inr (.inr ⟨hp, v, rfl, digestWord_ofNat s.lanes v⟩)⟩
  · exact ⟨_, _, he, rfl, .inr (.inl ⟨rfl, rfl⟩)⟩

end Sys2Proof
end
section
/-! PROOF of O46 and O47: the result of UPDATEs rests on the concatenated bytes alone, and FINALIZE after them leaves the
closed form (41_sponge_commands.md R76, R77). -/

namespace Sys2Proof.Machine

/-- What ABSORB commands that carry `bs` make of S, CURSOR and PHASE: they absorb while Absorbing and are rejected while
Finalized. -/
def offerBytes (bs : List Byte) (s : State) : State :=
  match s.phase with
  | .absorbing => absorbBytes bs s
  | .finalized => s

theorem offerBytes_absorbing (bs : List Byte) (s : State) (hp : s.phase = .absorbing) :
    offerBytes bs s = absorbBytes bs s := by
  simp only [offerBytes, hp]

theorem offerBytes_finalized (bs : List Byte) (s : State) (hp : s.phase = .finalized) : offerBytes bs s = s := by
  simp only [offerBytes, hp]

/-- Two states that agree on S, CURSOR and PHASE, as R76 compares them. -/
structure SameSponge (s t : State) : Prop where
  lanes : s.lanes = t.lanes
  cursor : s.cursor = t.cursor
  phase : s.phase = t.phase

/-- While Finalized every ABSORB is rejected, and the run goes on to its end. -/
theorem runResponses_absorbs_finalized (cs : List (BitVec 4 × Lane)) (s : State) (hn : ∀ c ∈ cs, c.1.toNat ≤ 8)
    (hp : s.phase = .finalized) :
    ∃ rs a, runResponses cs.length { s with host := cs.map fun c => commandEvent (.absorb c.1 c.2) } = some (rs, a) ∧
      SameSponge a s := by
  induction cs generalizing s with
  | nil => exact ⟨[], _, runResponses_zero _, rfl, rfl, rfl⟩
  | cons c cs ih =>
    obtain ⟨rs, a, hrun, hlanes, hcursor, hphase⟩ :=
      ih (reject .usageError s) (fun x hx => hn x (List.mem_cons_of_mem c hx)) hp
    have hc := hn c List.mem_cons_self
    have hhead := runResponses_command cs.length (.absorb c.1 c.2) s _ ⟨.usageError, 0⟩
      (cs.map fun c => commandEvent (.absorb c.1 c.2)) (decode_encode _ (decide_eq_true hc))
      (exec_absorb_finalized c.1 c.2 { s with host := _ } hc hp) rfl
    exact ⟨⟨.usageError, 0⟩ :: rs, a, hhead.trans (congrArg (Option.map _) hrun), hlanes, hcursor, hphase⟩

/-- A list of ABSORBs, in either phase, runs to its end; what it leaves rests on the concatenation of its bytes (R76). -/
theorem runResponses_absorbs_sponge (cs : List (BitVec 4 × Lane)) (s : State) (hn : ∀ c ∈ cs, c.1.toNat ≤ 8) :
    ∃ rs a, runResponses cs.length { s with host := cs.map fun c => commandEvent (.absorb c.1 c.2) } = some (rs, a) ∧
      SameSponge a (offerBytes (cs.flatMap fun c => dataBytes c.1.toNat c.2) s) := by
  rcases s.phase.absorbing_or_finalized with hp | hp
  · rw [offerBytes_absorbing _ _ hp]
    rcases eq_or_ne cs [] with rfl | hne
    · exact ⟨[], _, runResponses_zero _, rfl, rfl, rfl⟩
    · have hrun := runResponses_absorbs cs hne s [] hn hp
      rw [List.append_nil] at hrun
      exact ⟨_, _, hrun, rfl, rfl, rfl⟩
  · rw [offerBytes_finalized _ _ hp]
    exact runResponses_absorbs_finalized cs s hn hp

/-- UPDATEs of strings one after another, in either phase, run to their end; what they leave rests on the concatenated
string. -/
theorem runResponses_updates_sponge (ms : List (List Byte)) (s : State) :
    ∃ rs a, runResponses (ms.flatMap updateProgram).length { s with host := ms.flatMap updateProgram } = some (rs, a) ∧
      SameSponge a (offerBytes ms.flatten s) := by
  have hprogram : ms.flatMap updateProgram =
      (ms.flatMap fun m => (updateChunks m).map packed).map fun c => commandEvent (.absorb c.1 c.2) := by
    rw [List.map_flatMap]
    exact congrArg ms.flatMap (funext updateProgram_eq_map)
  have hbytes : (ms.flatMap fun m => (updateChunks m).map packed).flatMap (fun c => dataBytes c.1.toNat c.2) =
      ms.flatten := by
    simp only [List.flatMap_assoc, flatMap_dataBytes_packed, List.flatMap_id']
  have hcount : ∀ c ∈ ms.flatMap fun m => (updateChunks m).map packed, c.1.toNat ≤ 8 := by
    intro c hc
    obtain ⟨m, -, hm⟩ := List.mem_flatMap.mp hc
    exact count_le_of_mem_packed hm
  rw [hprogram, List.length_map, ← hbytes]
  exact runResponses_absorbs_sponge _ s hcount

end Sys2Proof.Machine

namespace Sys2Proof

open Machine

/-- Settles O46: both UPDATEs and the one UPDATE are lists of ABSORBs whose bytes have the same concatenation. -/
theorem streamingEquivalence : Obligations.StreamingEquivalence := by
  refine ⟨fun s cs hp hn => ?_, fun s x y => ?_⟩
  · obtain ⟨rs, a, hrun, hlanes, hcursor, hphase⟩ := runResponses_absorbs_sponge cs s hn
    rw [offerBytes_absorbing _ _ hp] at hlanes hcursor hphase
    exact ⟨rs, a, hrun, hlanes, hcursor, by rw [hphase, absorbBytes_phase, hp]⟩
  · obtain ⟨rs, a, hrun, ha⟩ := runResponses_updates_sponge [x, y] s
    obtain ⟨rs', b, hrun', hb⟩ := runResponses_updates_sponge [x ++ y] s
    simp only [List.flatMap_cons, List.flatMap_nil, List.flatten_cons, List.flatten_nil, List.append_nil] at hrun ha hrun' hb
    exact ⟨rs, a, rs', b, hrun, hrun', ha.lanes.trans hb.lanes.symm, ha.cursor.trans hb.cursor.symm,
      ha.phase.trans hb.phase.symm⟩

/-- Settles O47, by the closed form block by block. -/
theorem absorbThenFinalizeIsKeccak256 : Obligations.AbsorbThenFinalizeIsKeccak256 := by
  rintro s m ⟨hlanes, hcursor, hphase, -, -⟩
  have hstate := finishMessage_absorbBytes m s hlanes hcursor
  have hexec := exec_finalize (absorbBytes m s) ((absorbBytes_phase m s).trans hphase)
  exact ⟨_, hexec, hstate, congrArg digestBytes hstate, rfl, rfl⟩

end Sys2Proof
end
section
/-! PROOF of O35: a Finalized engine answers and moves by its view alone, so its hidden lanes 4 to 24 never show
(41_sponge_commands.md R80, 93_implementation_defined.md U3). -/

namespace Sys2Proof.Machine

open Safety

variable {s t s' t' : State}

/-! ### Two states with the same view stay so under the same update -/

theorem sameView_withHost (h : SameView s t) (rest : List HostEvent) :
    SameView { s with host := rest } { t with host := rest } := by
  obtain ⟨hcursor, hphase, herr, hecode, hresponse, -, hdigest⟩ := h
  exact ⟨hcursor, hphase, herr, hecode, hresponse, rfl, hdigest⟩

theorem sameView_respond (h : SameView s t) (d : Lane) : SameView (respond d s) (respond d t) := by
  obtain ⟨hcursor, hphase, herr, hecode, -, hhost, hdigest⟩ := h
  exact ⟨hcursor, hphase, herr, hecode, rfl, hhost, hdigest⟩

theorem sameView_reject (h : SameView s t) (c : RCode) : SameView (reject c s) (reject c t) := by
  obtain ⟨hcursor, hphase, -, -, -, hhost, hdigest⟩ := h
  exact ⟨hcursor, hphase, rfl, rfl, rfl, hhost, hdigest⟩

/-- A reset leaves of the state only what its host sees. -/
theorem clearEngine_eq_of_sameView (h : SameView s t) : clearEngine s = clearEngine t := by
  obtain ⟨-, -, -, -, hresponse, hhost, -⟩ := h
  simp only [clearEngine, hresponse, hhost]

/-! ### What the readout commands return is in the view -/

theorem statusWord_eq_of_sameView (h : SameView s t) : statusWord s = statusWord t := by
  obtain ⟨hcursor, hphase, herr, hecode, -⟩ := h
  simp only [statusWord, dvalid, hcursor, hphase, herr, hecode]

theorem digestWord_eq_of_sameDigest {L M : Lanes} (h : SameDigest L M) {w : BitVec 4} (hw : w.toNat ≤ 3) :
    digestWord L w = digestWord M w := by
  obtain ⟨h0, h1, h2, h3⟩ := h
  obtain ⟨v, rfl⟩ := (toNat_le_three_iff w).mp hw
  rw [digestWord_ofNat, digestWord_ofNat]
  fin_cases v
  · exact h0
  · exact h1
  · exact h2
  · exact h3

theorem answer_eq_of_sameHost (hhost : s.host = t.host) (hresponse : s'.response = t'.response) :
    answer s s' = answer t t' := by
  simp only [answer, hhost, hresponse]

theorem response_eq_of_indistinguishable (h : Indistinguishable s t) : s.response = t.response := by
  rcases h with rfl | ⟨-, -, -, -, -, hresponse, -⟩
  · rfl
  · exact hresponse

/-! ### Commands and steps -/

/-- While Finalized a command resets, is rejected, or returns a datum of the view. -/
theorem exec_keeps_indistinguishable (i : Instr) (hp : s.phase = .finalized) (h : SameView s t) :
    ∃ s' t', exec i s = .next s' ∧ exec i t = .next t' ∧ Indistinguishable s' t' := by
  obtain ⟨-, hphase, -, -, -, -, hdigest⟩ := id h
  have hp' : t.phase = .finalized := hphase.symm.trans hp
  have hreject (c : RCode) : Indistinguishable (reject c s) (reject c t) := .inr ⟨hp, sameView_reject h c⟩
  cases i with
  | reset => exact ⟨_, _, exec_reset s, exec_reset t, .inl (by rw [clearEngine_eq_of_sameView h])⟩
  | absorb n data =>
    by_cases hn : n.toNat ≤ 8
    · exact ⟨_, _, exec_absorb_finalized n data s hn hp, exec_absorb_finalized n data t hn hp', hreject _⟩
    · exact ⟨_, _, exec_absorb_illegal n data s hn, exec_absorb_illegal n data t hn, hreject _⟩
  | finalize => exact ⟨_, _, exec_finalize_finalized s hp, exec_finalize_finalized t hp', hreject _⟩
  | readDigest w =>
    by_cases hw : w.toNat ≤ 3
    · refine ⟨_, _, exec_readDigest w s hw hp, exec_readDigest w t hw hp', .inr ⟨hp, ?_⟩⟩
      rw [digestWord_eq_of_sameDigest (hdigest hp) hw]
      exact sameView_respond h _
    · exact ⟨_, _, exec_readDigest_illegal w s hw, exec_readDigest_illegal w t hw, hreject _⟩
  | readStatus =>
    refine ⟨_, _, exec_readStatus s, exec_readStatus t, .inr ⟨hp, ?_⟩⟩
    rw [statusWord_eq_of_sameView h]
    exact sameView_respond h _

theorem step_keeps_indistinguishable (hp : s.phase = .finalized) (h : SameView s t) (hs : step s = .next s') :
    ∃ t', step t = .next t' ∧ Indistinguishable s' t' := by
  obtain ⟨-, -, -, -, -, hhost, -⟩ := id h
  rcases step_cases s s' hs with ⟨hh, rfl⟩ | ⟨rest, hh, rfl⟩ | ⟨cmd, data, rest, e, hh, hd, rfl⟩ |
    ⟨cmd, data, rest, i, hh, hd, he⟩ <;> rw [hhost] at hh
  · exact ⟨t, step_idle t hh, .inr ⟨hp, h⟩⟩
  · refine ⟨_, step_hardReset t rest hh, .inl ?_⟩
    rw [hardwareReset, hardwareReset, clearEngine_eq_of_sameView (sameView_withHost h rest)]
  · refine ⟨_, ?_, .inr ⟨hp, sameView_reject (sameView_withHost h rest) .illegalCmd⟩⟩
    rw [step_command t cmd data rest hh, transact_error cmd data e _ hd]
  · obtain ⟨u, t', hu, ht, hi⟩ := exec_keeps_indistinguishable (s := { s with host := rest }) i hp (sameView_withHost h rest)
    cases he.symm.trans hu
    exact ⟨t', by rw [step_command t cmd data rest hh, transact_ok cmd data i _ hd, ht], hi⟩

end Sys2Proof.Machine

namespace Sys2Proof

open Machine

/-- Settles O35: equal states step alike, and Finalized states with the same view keep it, or are both reset. -/
theorem hiddenLanesNeverShow : Obligations.HiddenLanesNeverShow := by
  intro s t s' h hs
  rcases h with rfl | ⟨hp, hview⟩
  · exact ⟨s', hs, .inl rfl, rfl⟩
  · obtain ⟨t', ht, hi⟩ := step_keeps_indistinguishable hp hview hs
    obtain ⟨-, -, -, -, -, hhost, -⟩ := hview
    exact ⟨t', ht, hi, answer_eq_of_sameHost hhost (response_eq_of_indistinguishable hi)⟩

end Sys2Proof
end

section
/-! PROOF of O11, O20, O21, O22, O27 and O34: a command is taken alone and answered, which code it is answered with, and
what a rejection leaves of the state (60_exceptions.md R83 to R93). -/

namespace Sys2Proof.Machine

open Safety

variable {s t s' t' : State} {i : Instr} {cmd : Cmd} {data : Lane} {rest : List HostEvent}

/-! ### A transaction: what it takes, and that it answers (R83, R87) -/

/-- No command reads or writes what the host has still to send. -/
theorem exec_host (he : exec i s = .next t) : t.host = s.host := by
  rcases exec_cases i s t he with ⟨c, -, rfl⟩ | ⟨-, rfl⟩ | ⟨n, data, -, -, -, rfl⟩ | ⟨-, -, rfl⟩ | ⟨w, -, -, -, rfl⟩ | ⟨-, rfl⟩
  all_goals simp

theorem step_host (hs : step s = .next t) : t.host = s.host.tail := by
  rcases step_cases s t hs with ⟨hh, rfl⟩ | ⟨rest, hh, rfl⟩ | ⟨cmd, data, rest, e, hh, -, rfl⟩ | ⟨cmd, data, rest, i, hh, -, he⟩
  · rw [hh, List.tail_nil]
  · rw [hh]; rfl
  · rw [hh]; rfl
  · rw [hh, exec_host he, List.tail_cons]

/-- A command responds, and where the response is a rejection the command did nothing but that rejection. -/
theorem exec_precise (he : exec i s = .next t) :
    ∃ r, t.response = some r ∧ (r.rcode ≠ .ok → t = reject r.rcode s) := by
  rcases exec_record he with ⟨c, -, rfl⟩ | ⟨-, rfl⟩ | ⟨-, -, d, hresponse⟩
  · exact ⟨_, rfl, fun _ => rfl⟩
  · exact ⟨_, rfl, fun hr => absurd rfl hr⟩
  · exact ⟨_, hresponse, fun hr => absurd rfl hr⟩

/-- With a transaction at the port, a step is the rejection of an illegal word or the command of a legal one. -/
theorem step_command_cases (hh : s.host = .command cmd data :: rest) (hs : step s = .next t) :
    (legal cmd = false ∧ t = reject .illegalCmd { s with host := rest }) ∨
    (∃ i, decode cmd data = .ok i ∧ exec i { s with host := rest } = .next t) := by
  rw [step_command s cmd data rest hh] at hs
  cases hd : decode cmd data with
  | ok i => rw [transact_ok cmd data i _ hd] at hs; exact .inr ⟨i, rfl, hs⟩
  | error e =>
    rw [transact_error cmd data e _ hd] at hs
    cases hs
    exact .inl ⟨(not_legal_iff_decode_error cmd data).mpr ⟨e, hd⟩, rfl⟩

theorem step_precise (hh : s.host = .command cmd data :: rest) (hs : step s = .next t) :
    ∃ r, t.response = some r ∧ (r.rcode ≠ .ok → t = reject r.rcode { s with host := rest }) := by
  rcases step_command_cases hh hs with ⟨-, rfl⟩ | ⟨i, -, he⟩
  · exact ⟨_, rfl, fun _ => rfl⟩
  · exact exec_precise he

theorem transact_answers (cmd : Cmd) (data : Lane) (s : State) : ∃ t, transact cmd data s = .next t := by
  cases hd : decode cmd data with
  | ok i => rw [transact_ok cmd data i s hd]; exact exec_answers i s
  | error e => exact ⟨_, transact_error cmd data e s hd⟩

/-- The overlap is the one event on which a step stops. -/
theorem step_answers (h : HostSerialises s) : ∃ t, step s = .next t := by
  rcases hh : s.host with _ | ⟨e, rest⟩
  · exact ⟨_, step_idle s hh⟩
  · cases e with
    | command cmd data => rw [step_command s cmd data rest hh]; exact transact_answers cmd data _
    | hardReset => exact ⟨_, step_hardReset s rest hh⟩
    | overlapped cmd data => exact absurd rfl (h (.overlapped cmd data) (by simp [hh]) cmd data)

theorem step_keeps_hostSerialises (hs : step s = .next t) (h : HostSerialises s) : HostSerialises t := by
  intro e he
  rw [step_host hs] at he
  exact h e (List.mem_of_mem_tail he)

/-! ### Which code a command is answered with (R84 to R86) -/

/-- The code with which a well-formed command is answered in a phase: the phase rule of R85. -/
def phaseCode (i : Instr) (p : Phase) : RCode :=
  match i with
  | .reset => .ok
  | .absorb _ _ => if p = .finalized then .usageError else .ok
  | .finalize => if p = .finalized then .usageError else .ok
  | .readDigest _ => if p = .absorbing then .noDigest else .ok
  | .readStatus => .ok

theorem exec_rcode (hw : i.wellFormed = true) (he : exec i s = .next t) :
    t.response.map Response.rcode = some (phaseCode i s.phase) := by
  cases i with
  | reset => cases he; rfl
  | absorb n data =>
    have hn : n.toNat ≤ 8 := of_decide_eq_true hw
    rcases s.phase.absorbing_or_finalized with hp | hp <;> rw [hp]
    · cases (exec_absorb n data s hn hp).symm.trans he; rfl
    · cases (exec_absorb_finalized n data s hn hp).symm.trans he; rfl
  | finalize =>
    rcases s.phase.absorbing_or_finalized with hp | hp <;> rw [hp]
    · cases (exec_finalize s hp).symm.trans he; rfl
    · cases (exec_finalize_finalized s hp).symm.trans he; rfl
  | readDigest w =>
    have hn : w.toNat ≤ 3 := of_decide_eq_true hw
    rcases s.phase.absorbing_or_finalized with hp | hp <;> rw [hp]
    · cases (exec_readDigest_absorbing w s hn hp).symm.trans he; rfl
    · cases (exec_readDigest w s hn hp).symm.trans he; rfl
  | readStatus => cases he; rfl

theorem phaseCode_ne_illegalCmd (i : Instr) (p : Phase) : phaseCode i p ≠ .illegalCmd := by
  cases i <;> cases p <;> simp [phaseCode]

theorem phaseCode_eq_usageError (i : Instr) (p : Phase) :
    phaseCode i p = .usageError ↔ (opcOf (encode i).1 = 1 ∨ opcOf (encode i).1 = 2) ∧ p = .finalized := by
  cases i <;> cases p <;> simp [phaseCode, encode]

theorem phaseCode_eq_noDigest (i : Instr) (p : Phase) :
    phaseCode i p = .noDigest ↔ opcOf (encode i).1 = 3 ∧ p = .absorbing := by
  cases i <;> cases p <;> simp [phaseCode, encode]

theorem wellFormed_of_decode_ok (hd : decode cmd data = .ok i) : i.wellFormed = true := by
  rw [← legal_encode, ← cmd_eq_of_decode_ok hd]
  exact (legal_iff_decode_ok cmd data).mpr ⟨i, hd⟩

/-- A step answers an illegal word with ILLEGAL_CMD whatever the phase, and the word of a well-formed command by the phase
rule. -/
theorem step_rcode (hh : s.host = .command cmd data :: rest) (hs : step s = .next t) :
    (legal cmd = false ∧ t.response.map Response.rcode = some .illegalCmd) ∨
    (∃ i, legal cmd = true ∧ cmd = (encode i).1 ∧ t.response.map Response.rcode = some (phaseCode i s.phase)) := by
  rcases step_command_cases hh hs with ⟨hl, rfl⟩ | ⟨i, hd, he⟩
  · exact .inl ⟨hl, rfl⟩
  · exact .inr ⟨i, (legal_iff_decode_ok cmd data).mpr ⟨i, hd⟩, cmd_eq_of_decode_ok hd,
      exec_rcode (s := { s with host := rest }) (wellFormed_of_decode_ok hd) he⟩

/-! ### Runs without a reset (R88, R93) -/

/-- The host sends commands alone, and none of them is RESET. -/
abbrev SendsNoReset (s : State) : Prop := ∀ e ∈ s.host, ∃ cmd data, e = .command cmd data ∧ cmd ≠ 0x0000

theorem step_keeps_sendsNoReset (hs : step s = .next t) (h : SendsNoReset s) : SendsNoReset t := by
  intro e he
  rw [step_host hs] at he
  exact h e (List.mem_of_mem_tail he)

theorem usedCorrectly_nil : UsedCorrectly [] := nofun

theorem usedCorrectly_append (rs rs' : List Response) :
    UsedCorrectly (rs ++ rs') ↔ UsedCorrectly rs ∧ UsedCorrectly rs' :=
  List.forall_mem_append

/-- A command other than RESET leaves ERR = 0 exactly when it was 0 and the command is accepted. -/
theorem exec_err_eq_false (hi : i ≠ .reset) (he : exec i s = .next t) :
    t.err = false ↔ s.err = false ∧ UsedCorrectly t.response.toList := by
  rcases exec_record he with ⟨c, hc, rfl⟩ | ⟨hreset, -⟩ | ⟨herr, -, d, hresponse⟩
  · simp [hc, UsedCorrectly]
  · exact absurd hreset hi
  · simp [herr, hresponse, UsedCorrectly]

theorem step_err_eq_false (h : SendsNoReset s) (hs : step s = .next t) :
    t.err = false ↔ s.err = false ∧ UsedCorrectly (answer s t) := by
  rcases hh : s.host with _ | ⟨e, rest⟩
  · cases (step_idle s hh).symm.trans hs
    have hanswer : answer s s = [] := by simp only [answer, hh]
    rw [hanswer]
    exact (and_iff_left usedCorrectly_nil).symm
  · obtain ⟨cmd, data, rfl, hcmd⟩ := h e (by simp [hh])
    have hanswer : answer s t = t.response.toList := by simp only [answer, hh]
    rw [hanswer]
    rcases step_command_cases hh hs with ⟨-, rfl⟩ | ⟨i, hd, he⟩
    · simp
    · have hi : i ≠ .reset := by
        rintro rfl
        exact hcmd (cmd_eq_of_decode_ok hd)
      exact exec_err_eq_false (s := { s with host := rest }) hi he

/-- A run without a reset ends with ERR = 0 exactly when it began so and every response is OK. -/
theorem runResponses_err_eq_false (k : Nat) (rs : List Response) (h : SendsNoReset s)
    (hrun : runResponses k s = some (rs, t)) : t.err = false ↔ s.err = false ∧ UsedCorrectly rs := by
  induction k generalizing s rs with
  | zero => cases hrun; exact (and_iff_left usedCorrectly_nil).symm
  | succ k ih =>
    cases hs : step s with
    | next s' =>
      rw [runResponses_next k s s' hs] at hrun
      obtain ⟨⟨rs', t'⟩, hrun', he⟩ := Option.map_eq_some_iff.mp hrun
      cases he
      rw [ih rs' (step_keeps_sendsNoReset hs h) hrun', step_err_eq_false h hs, usedCorrectly_append, and_assoc]
    | fault r => exact nomatch r
    | refused r => simp [runResponses, hs] at hrun

/-! ### What a step shows rests on the view alone (R92) -/

/-- Two states whose ports and control state agree, whatever their lanes. -/
structure SameControl (s t : State) : Prop where
  response : s.response = t.response
  cursor : s.cursor = t.cursor
  phase : s.phase = t.phase
  err : s.err = t.err
  ecode : s.ecode = t.ecode
  host : s.host = t.host

theorem sameControl_of_sameView (h : SameView s t) : SameControl s t := by
  obtain ⟨hcursor, hphase, herr, hecode, hresponse, hhost, -⟩ := h
  exact ⟨hresponse, hcursor, hphase, herr, hecode, hhost⟩

theorem sameControl_of_indistinguishable (h : Indistinguishable s t) : SameControl s t := by
  rcases h with rfl | ⟨-, hview⟩
  · exact ⟨rfl, rfl, rfl, rfl, rfl, rfl⟩
  · exact sameControl_of_sameView hview

theorem sameControl_respond (h : SameControl s t) (d : Lane) : SameControl (respond d s) (respond d t) :=
  { h with response := rfl }

theorem sameControl_finishMessage (h : SameControl s t) : SameControl (finishMessage s) (finishMessage t) :=
  { h with cursor := rfl, phase := rfl }

/-- CURSOR moves by the number of the bytes; the lanes are not read for it. -/
theorem sameControl_absorbBytes (h : SameControl s t) (bs : List Byte) :
    SameControl (absorbBytes bs s) (absorbBytes bs t) where
  response := by simp [h.response]
  cursor := Fin.ext (by rw [absorbBytes_cursor, absorbBytes_cursor, h.cursor])
  phase := by simp [h.phase]
  err := by simp [h.err]
  ecode := by simp [h.ecode]
  host := by simp [h.host]

/-- While Absorbing no command returns a datum of the lanes. -/
theorem exec_absorbing_sameControl (i : Instr) (hp : s.phase = .absorbing) (h : SameView s t) :
    ∃ s' t', exec i s = .next s' ∧ exec i t = .next t' ∧ SameControl s' t' := by
  have hc := sameControl_of_sameView h
  have hp' : t.phase = .absorbing := hc.phase.symm.trans hp
  have hreject (c : RCode) : SameControl (reject c s) (reject c t) := sameControl_of_sameView (sameView_reject h c)
  cases i with
  | reset =>
    refine ⟨_, _, exec_reset s, exec_reset t, sameControl_of_indistinguishable (.inl ?_)⟩
    rw [clearEngine_eq_of_sameView h]
  | absorb n data =>
    by_cases hn : n.toNat ≤ 8
    · exact ⟨_, _, exec_absorb n data s hn hp, exec_absorb n data t hn hp',
        sameControl_respond (sameControl_absorbBytes hc _) 0⟩
    · exact ⟨_, _, exec_absorb_illegal n data s hn, exec_absorb_illegal n data t hn, hreject _⟩
  | finalize =>
    exact ⟨_, _, exec_finalize s hp, exec_finalize t hp', sameControl_respond (sameControl_finishMessage hc) 0⟩
  | readDigest w =>
    by_cases hw : w.toNat ≤ 3
    · exact ⟨_, _, exec_readDigest_absorbing w s hw hp, exec_readDigest_absorbing w t hw hp', hreject _⟩
    · exact ⟨_, _, exec_readDigest_illegal w s hw, exec_readDigest_illegal w t hw, hreject _⟩
  | readStatus =>
    refine ⟨_, _, exec_readStatus s, exec_readStatus t, ?_⟩
    rw [statusWord_eq_of_sameView h]
    exact sameControl_respond hc _

theorem exec_sameControl (h : SameView s t) (he : exec i s = .next s') :
    ∃ t', exec i t = .next t' ∧ SameControl s' t' := by
  rcases s.phase.absorbing_or_finalized with hp | hp
  · obtain ⟨u, t', hu, ht, hc⟩ := exec_absorbing_sameControl i hp h
    cases he.symm.trans hu
    exact ⟨t', ht, hc⟩
  · obtain ⟨u, t', hu, ht, hi⟩ := exec_keeps_indistinguishable i hp h
    cases he.symm.trans hu
    exact ⟨t', ht, sameControl_of_indistinguishable hi⟩

theorem step_sameControl (h : SameView s t) (hs : step s = .next s') :
    ∃ t', step t = .next t' ∧ SameControl s' t' := by
  obtain ⟨-, -, -, -, -, hhost, -⟩ := id h
  rcases step_cases s s' hs with ⟨hh, rfl⟩ | ⟨rest, hh, rfl⟩ | ⟨cmd, data, rest, e, hh, hd, rfl⟩ |
    ⟨cmd, data, rest, i, hh, hd, he⟩ <;> rw [hhost] at hh
  · exact ⟨t, step_idle t hh, sameControl_of_sameView h⟩
  · exact ⟨_, step_hardReset t rest hh, ⟨rfl, rfl, rfl, rfl, rfl, rfl⟩⟩
  · refine ⟨_, ?_, sameControl_of_sameView (sameView_reject (sameView_withHost h rest) .illegalCmd)⟩
    rw [step_command t cmd data rest hh, transact_error cmd data e _ hd]
  · rw [step_command t cmd data rest hh, transact_ok cmd data i _ hd]
    exact exec_sameControl (sameView_withHost h rest) he

end Sys2Proof.Machine

namespace Sys2Proof

open Machine

/-- Settles O11: only an overlap stops a step, and a step takes the head of the host's events alone. -/
theorem serialHostIsAlwaysAnswered : Obligations.SerialHostIsAlwaysAnswered := by
  intro s h
  obtain ⟨t, hs⟩ := step_answers h
  refine ⟨t, hs, step_keeps_hostSerialises hs h, fun cmd data rest hh => ⟨?_, ?_⟩⟩
  · rw [step_host hs, hh, List.tail_cons]
  · obtain ⟨r, hr, -⟩ := step_precise hh hs
    exact ⟨r, hr⟩

/-- Settles O20: the count is checked before the phase. -/
theorem illFormedCountsAreRejected : Obligations.IllFormedCountsAreRejected :=
  fun n data s => ⟨fun hn => exec_absorb_illegal n data s (by omega), fun hn => exec_readDigest_illegal n s (by omega)⟩

/-- Settles O21: a response other than OK comes from `reject` alone, for illegal words and for commands. -/
theorem rejectionIsPrecise : Obligations.RejectionIsPrecise := fun _ _ _ _ _ hh hs => step_precise hh hs

/-- Settles O22: an illegal word is rejected before the phase is looked at, and the phase rule has no ILLEGAL_CMD. -/
theorem rejectionCausesByCommand : Obligations.RejectionCausesByCommand := by
  intro s t cmd data rest hh hs
  have hrecord : ∀ r, t.response = some r → r.rcode ≠ .ok → t.err = true ∧ t.ecode = r.rcode := by
    obtain ⟨r, hr, hreject⟩ := step_precise hh hs
    intro r' hr' hne
    cases hr.symm.trans hr'
    rw [hreject hne]
    exact ⟨rfl, rfl⟩
  rcases step_rcode hh hs with ⟨hl, hcode⟩ | ⟨i, hl, rfl, hcode⟩
  · refine ⟨?_, ?_, ?_, hrecord⟩ <;> simp [hcode, hl]
  · simp only [hcode, hl, Option.some_inj, true_and]
    exact ⟨by simp [phaseCode_ne_illegalCmd], phaseCode_eq_usageError i _, phaseCode_eq_noDigest i _, hrecord⟩

/-- Settles O27, by induction over the steps: no command but RESET clears ERR, and every rejection sets it. -/
theorem correctUseIsErrZeroAtTheEnd : Obligations.CorrectUseIsErrZeroAtTheEnd := by
  intro k s t rs h herr hrun
  rw [runResponses_err_eq_false k rs h hrun, and_iff_right herr]

/-- Settles O34: while Finalized the digest lanes are in the view, and while Absorbing no lane is answered. -/
theorem responsesDependOnTheViewAlone : Obligations.ResponsesDependOnTheViewAlone := by
  intro s t s' h hs
  obtain ⟨t', ht, hresponse, hcursor, hphase, herr, hecode, hhost⟩ := step_sameControl h hs
  exact ⟨t', ht, hresponse, hcursor, hphase, herr, hecode, hhost⟩

end Sys2Proof
end

section
/-! PROOF of O9, O10, O12 and O53: what the sources of a reset leave, what follows RESET, and that an engine whose own host
serialises never stops (70_reset_and_hazards.md R94 to R97, R104). -/

namespace Sys2Proof.Machine

open Safety

variable {s t : State}

/-! ### The reset state (R94, R95) -/

theorem resetState_respond (d : Lane) (h : ResetState s) : ResetState (respond d s) := h

theorem statusWord_of_resetState (h : ResetState s) : statusWord s = 0x0000 := by
  obtain ⟨-, hcursor, hphase, herr, hecode⟩ := h
  simp only [statusWord, dvalid, hcursor, hphase, herr, hecode]
  rfl

/-- RESET writes the same values whatever it finds, so a second one writes them again. -/
theorem exec_reset_idempotent (h : exec .reset s = .next t) : exec .reset t = .next t := by
  cases h
  rfl

/-! ### Runs of a serialising host (R97) -/

/-- A predicate that every step keeps holds where a run ends if it holds where the run begins. -/
theorem runResponses_keeps {P : State → Prop} (hstep : ∀ {s t}, step s = .next t → P s → P t) (k : Nat)
    (rs : List Response) (h : P s) (hrun : runResponses k s = some (rs, t)) : P t := by
  induction k generalizing s rs with
  | zero => cases hrun; exact h
  | succ k ih =>
    cases hs : step s with
    | next s' =>
      rw [runResponses_next k s s' hs] at hrun
      obtain ⟨⟨rs', t'⟩, hrun', he⟩ := Option.map_eq_some_iff.mp hrun
      cases he
      exact ih rs' (hstep hs h) hrun'
    | fault r => exact nomatch r
    | refused r => simp [runResponses, hs] at hrun

theorem step_ne_refused (h : HostSerialises s) (r : Refusal) : step s ≠ .refused r := by
  obtain ⟨t, ht⟩ := step_answers h
  simp [ht]

end Sys2Proof.Machine

namespace Sys2Proof

open Machine

/-- Settles O9: the equation of `step` for an overlap at the port. -/
theorem overlappingHostIsRefused : Obligations.OverlappingHostIsRefused := step_overlapped

/-- Settles O10: all three sources come down to `clearEngine`, and the port and the host's events are no part of the reset
state. -/
theorem everyResetSourceGivesTheResetState : Obligations.EveryResetSourceGivesTheResetState :=
  ⟨fun s => ⟨_, exec_reset s, resetState_respond 0 (resetState_clearEngine s)⟩,
   resetState_clearEngine State.reset,
   fun s rest hh => ⟨_, step_hardReset s rest hh, resetState_hardwareReset _, hardwareReset_host _⟩⟩

/-- Settles O12: RESET leaves a reset state, whose STATUS is 0 and in which no digest is readable. -/
theorem resetIsTotalAndIdempotent : Obligations.ResetIsTotalAndIdempotent := by
  intro s
  have hreset : Safety.ResetState (respond 0 (clearEngine s)) := resetState_respond 0 (resetState_clearEngine s)
  exact ⟨_, exec_reset s, rfl, exec_reset_idempotent (exec_reset s), statusWord_of_resetState hreset,
    fun w hw => exec_readDigest_absorbing w _ hw (clearEngine_phase s)⟩

/-- Settles O53: by isolation (O50) engine k stops only where a run of its own ends before a refused step; but its host
still serialises there, and then the step answers. -/
theorem serialHostIsAnsweredBesideAnyOthers : Obligations.SerialHostIsAnsweredBesideAnyOthers := by
  intro n order p k hstop hserial
  obtain ⟨hisolated, -⟩ := enginesAreIsolated n order p k
  rcases hisolated hstop with ⟨rs, s, hrun, -, hend⟩ | ⟨m, rs, s, r, -, hrun, hrefused, -, -⟩
  · exact ⟨rs, s, hrun, hend⟩
  · exact absurd hrefused (step_ne_refused (runResponses_keeps step_keeps_hostSerialises m rs hserial hrun) r)

end Sys2Proof
end
